-- ==== Sys2Proof/Word.lean ====
section
/-! DEFINITION. Words: an 8-bit byte, and a register value that carries its own width (R9, R14, R15).
The widths AW, N + 2, BCW, DCW and PDW are construction parameters, so a register's width is data beside its bits:
two values compare as data, and no value outgrows its register. -/

namespace Sys2Proof

/-- A buffer word, W = 8 bits (R9, R37). -/
abbrev Byte := BitVec 8

/-- The value of a register `width` bits wide (R14). -/
structure Word where
  width : Nat
  bits : BitVec width
deriving DecidableEq, Repr

/-- The number `n` reduced to `w` bits (R15). -/
def Word.ofNat (w n : Nat) : Word := ⟨w, BitVec.ofNat w n⟩

/-- The unsigned value (R14: every value is unsigned). -/
def Word.toNat (x : Word) : Nat := x.bits.toNat

/-- `x + 1` in the width of `x` (R15). -/
def Word.inc (x : Word) : Word := ⟨x.width, x.bits + 1#x.width⟩

/-- `x - 1` in the width of `x` (R15). -/
def Word.dec (x : Word) : Word := ⟨x.width, x.bits - 1#x.width⟩

end Sys2Proof
end

