-- ==== Sys2Proof/Config.lean ====
section
/-! DEFINITION. The construction parameters of R9 to R12 as plain data (log 1), and the free values (log 3).
A machine's parameters stand in its State, fixed from construction on (R33), so that a statement over all states
is a statement over all configurations. -/

namespace Sys2Proof

/-- `CLOCKING` (R11). -/
inductive Clocking where
  | dual    -- two independent clocks, sys and rx
  | single  -- one clock drives every block
deriving DecidableEq, Repr

/-- `RDW` (R11, R41): what a read returns of the address its own domain writes at the same edge. -/
inductive ReadDuringWrite where
  | old
  | new
  | any
deriving DecidableEq, Repr

/-- The crossings X1 (`frame_avail`), X2 (`frame_len`) and X3 (`trig`) of R124. X4 is the CAPBUF read of R42. -/
inductive CrossingId where
  | x1
  | x2
  | x3
deriving DecidableEq, Repr

/-- A function from the sys cycle number to one bit, as data: the first bits one by one, then a period repeated
for ever (an empty period: 0 for ever). -/
structure Waveform where
  start : List Bool
  period : List Bool
deriving DecidableEq, Repr

/-- Any function from the sys cycle number to one bit (R12: TRIGGER is "any function"; log 2). -/
inductive CycleSignal where
  | wave (w : Waveform)  -- one that repeats, bit by bit
  | free (k : Nat)       -- any other: the free value `Config.freeSignal k`
deriving DecidableEq, Repr

/-- A one-bit signal of the sys domain that the core's own registers drive. -/
inductive CoreSignal where
  | trig                -- `trig` (R118)
  | strobe              -- `strobe` of PDM (R27)
  | wordOut (i : Fin 8) -- `word_out[i]` of PDM (R27)
  | line (v : Nat)      -- `serial_out` of BTX instance `v` (R24)
deriving DecidableEq, Repr

/-- The registers and inputs of the sys domain in one cycle, as plain data: what combinational logic in that domain
can see. -/
structure SysView where
  sysCycle : Nat
  trig : Bool
  /-- `sr`, `bc` and `dc` of each BTX instance -/
  uarts : List (Word × Word × Word)
  /-- the state code `Q` of R64 -/
  pdmCode : Bool × Bool
  pdmLen : Word
  pdmRaddr : Word
  pdmDc : Word
  word : Byte
  strobe : Bool
  capRdata : Byte
  /-- the levels of the `send` inputs -/
  sendInputs : List Bool
deriving DecidableEq, Repr

/-- Where a BTX instance's `send` comes from: OPEN (R12, R119; log 21). -/
inductive SendSource where
  | input                    -- a boundary input the host drives
  | cycle (f : CycleSignal)  -- a signal that depends on the sys cycle number alone
  | core (c : CoreSignal)    -- a register's signal of the core
  | logic (k : Nat)          -- combinational logic over the sys domain: the free value `Config.freeLogic k`
deriving DecidableEq, Repr

/-- `UART_CFG[i]` (R12): one BTX instance's `N`, `K`, `BYTE` and the source of its `send`. -/
structure UartCfg where
  n : Nat
  k : Nat
  byte : Nat
  send : SendSource
deriving DecidableEq, Repr

/-- All the construction parameters (R9 to R12). Their legal values are `Params.legal`. -/
structure Params where
  /-- `AW` -/
  aw : Nat
  /-- `D` -/
  d : Nat
  /-- `W` -/
  w : Nat
  /-- `DDIV` -/
  ddiv : Nat
  /-- `PDW` -/
  pdw : Nat
  /-- `ERR`, the reserved error field (R26) -/
  err : Bool
  clocking : Clocking
  /-- `SYNC_STAGES` -/
  syncStages : Nat
  rdw : ReadDuringWrite
  /-- `LINKS` -/
  links : Nat
  /-- `REPLAY_INIT`: the bytes from address 0 -/
  replayInit : List Byte
  /-- `CAPTURE_INIT`: the D words of CAPBUF as the memory list that holds them (log 8) -/
  captureInit : List (Nat × Byte)
  /-- `REPLAY_LEN` -/
  replayLen : Nat
  /-- `TRIGGER` -/
  trigger : CycleSignal
  /-- `UARTS` and `UART_CFG`: one entry per instance -/
  uarts : List UartCfg
deriving DecidableEq, Repr

/-- Where the spec draws (R17): the race of a crossing (R127, R129) and a CAPBUF read (R41, R42). -/
inductive DrawSite where
  | crossing (x : CrossingId)
  | capRead
deriving DecidableEq, Repr

/-- One draw: whether CDC.RACE takes its fault arm, and which bits take the newer of their two values (bit `i` of
`pick` is 1 when bit `i` does). -/
structure Resolve where
  fault : Bool
  pick : Nat
deriving DecidableEq, Repr, Inhabited

/-- FREE VALUE (log 3): the draw at a site at the edge with this number. It has no body: no proof can see it. -/
opaque Config.freeResolve : DrawSite → Nat → Resolve

/-- FREE VALUE (log 2): the bit of the free signal `k` in a sys cycle. It has no body, so a claim that holds of it holds
of every function from the sys cycle number to one bit. -/
opaque Config.freeSignal : Nat → Nat → Bool

/-- FREE VALUE (log 21): what the free logic `k` makes of the sys domain's registers and inputs. It has no body. -/
opaque Config.freeLogic : Nat → SysView → Bool

/-- FREE VALUE (log 4): how many rx edges come before the sys edge with this number, where no stimulus names the edges
(under DUAL). It has no body, so a claim that holds of it holds of every interleaving in which sys ticks for ever (R122).
-/
opaque Config.freeRxBurst : Nat → Nat

/-- FREE VALUE (log 4): `rx_data` of the cycle that the edge with this number ends, where no stimulus names it. -/
opaque Config.freeRxData : Nat → Byte

/-- FREE VALUE (log 4): `rx_ctl` of the cycle that such an edge ends. -/
opaque Config.freeRxCtl : Nat → BitVec 2

/-- FREE VALUE (log 4): the `send` input of a BTX instance in the cycle that such an edge ends. -/
opaque Config.freeSend : Nat → Nat → Bool

end Sys2Proof
end

