-- ==== Sys2Proof/Machine/Bits.lean ====
section
/-! DEFINITION. The bit-field operations the rules use on words: bit selection and concatenation (R14), the shift of
BTX, per-bit draws (R17, R41, R42, R127). -/

namespace Sys2Proof

/-- `v[i]` (R14). -/
def Word.bit (x : Word) (i : Nat) : Bool := x.bits.getLsbD i

/-- A one-bit signal as a word of width 1 (R18: asserted is 1). -/
def Word.ofBool (b : Bool) : Word := ⟨1, BitVec.ofBool b⟩

/-- Whether a one-bit signal held as a word is asserted (R18). -/
def Word.asserted (x : Word) : Bool := x.bit 0

/-- All bits 1, the reset value of `sr` (R24). -/
def Word.ones (w : Nat) : Word := ⟨w, BitVec.allOnes w⟩

/-- `{1, data, 0}` with `data` of `n` bits: stop bit, data, start bit (R54, R75). -/
def Word.serialFrame (n data : Nat) : Word :=
  ⟨n + 2, BitVec.twoPow (n + 2) (n + 1) ||| ((BitVec.ofNat n data).setWidth (n + 2) <<< 1)⟩

/-- `{1, sr[w-1:1]}`: right by one, a 1 shifted in at the top (R77). -/
def Word.shiftInOne (x : Word) : Word := ⟨x.width, (x.bits >>> 1) ||| BitVec.twoPow x.width (x.width - 1)⟩

/-- Each bit drawn between two bit vectors: the bits set in `pick` come from `new`, the others from `old`. -/
def drawBits {w : Nat} (pick : Nat) (old new : BitVec w) : BitVec w :=
  (new &&& BitVec.ofNat w pick) ||| (old &&& ~~~(BitVec.ofNat w pick))

/-- Each bit of a crossing drawn between its value before and after the change (R127, R129). -/
def Word.draw (pick : Nat) (old new : Word) : Word :=
  ⟨new.width, drawBits pick (old.bits.setWidth new.width) new.bits⟩

end Sys2Proof
end

