-- ==== Sys2Proof/Machine/Memory.lean ====
section
/-! DEFINITION. The store of one buffer (R28, R37): a list of address and byte pairs, addresses strictly rising, no
pair with the byte an unlisted address reads as. An unlisted address reads 0: REPBUF's fill (R43), and the form in
which CAPTURE_INIT is written (log 8). -/

namespace Sys2Proof.Machine

abbrev Mem := List Host.Cell

/-- What an address the list does not hold reads as (R43, log 8). -/
def unlistedByte : Byte := 0#8

/-- The byte at an address. -/
def Mem.read : Mem → Nat → Byte
  | [], _ => unlistedByte
  | (b, v) :: m, a => if a = b then v else Mem.read m a

/-- The list without a cell at `a`. -/
def Mem.erase (m : Mem) (a : Nat) : Mem := m.filter (fun c => c.1 != a)

/-- The list with a cell put in its place in the order. -/
def Mem.insert : Mem → Nat → Byte → Mem
  | [], a, v => [(a, v)]
  | (b, u) :: m, a, v =>
    if a < b then (a, v) :: (b, u) :: m
    else if a = b then (a, v) :: m
    else (b, u) :: Mem.insert m a v

/-- `MemWrite(B, a, 1, v)` (R17, R39), keeping the form. -/
def Mem.write (m : Mem) (a : Nat) (v : Byte) : Mem :=
  if v = unlistedByte then Mem.erase m a else Mem.insert m a v

/-- The addresses of a list strictly rise, from above `lo` when there is one. -/
def Mem.risesFrom : Option Nat → Mem → Bool
  | _, [] => true
  | none, (a, _) :: m => Mem.risesFrom (some a) m
  | some lo, (a, _) :: m => lo < a && Mem.risesFrom (some a) m

/-- The canonical form: addresses strictly rising, no cell with the unlisted byte. -/
def Mem.wf (m : Mem) : Bool := Mem.risesFrom none m && m.all (fun c => c.2 != unlistedByte)

/-- Every listed address is below the depth `d` (R47). -/
def Mem.within (d : Nat) (m : Mem) : Bool := m.all (fun c => c.1 < d)

/-- A byte sequence placed from address `a` on (R43). -/
def Mem.load : Nat → List Byte → Mem
  | _, [] => []
  | a, v :: vs => if v = unlistedByte then Mem.load (a + 1) vs else (a, v) :: Mem.load (a + 1) vs

end Sys2Proof.Machine
end

