-- ==== Sys2Proof/Machine/Construct.lean ====
section
/-! DEFINITION. Construction: the derived widths of R10, the values of a cycle signal, the legal values of every parameter
(R9 to R13, U19), and the configuration State.reset carries (log 1). -/

namespace Sys2Proof

/-- `bitlen(v)`: the number of bits in the binary form of `v` (R10). -/
def bitlen (v : Nat) : Nat := if v = 0 then 0 else Nat.log2 v + 1

/-- `BCW = bitlen(N + 2)` (R10). -/
def UartCfg.bcw (c : UartCfg) : Nat := bitlen (c.n + 2)

/-- `DCW = max(1, bitlen(K - 1))` (R10). -/
def UartCfg.dcw (c : UartCfg) : Nat := max 1 (bitlen (c.k - 1))

/-- The least legal `PDW`, `max(1, bitlen(DDIV - 2))` (R10). -/
def Params.minPdw (c : Params) : Nat := max 1 (bitlen (c.ddiv - 2))

/-- The bit of a waveform in sys cycle `t` (R118). -/
def Waveform.at (f : Waveform) (t : Nat) : Bool :=
  if t < f.start.length then f.start.getD t false
  else f.period.getD ((t - f.start.length) % f.period.length) false

/-- The bit of a cycle signal in sys cycle `t` (R118; log 2). -/
def CycleSignal.at (f : CycleSignal) (t : Nat) : Bool :=
  match f with
  | .wave w => w.at t
  | .free k => Config.freeSignal k t

/-- A source that a core with `uarts` BTX instances has (log 21). -/
def SendSource.legal (uarts : Nat) : SendSource → Bool
  | .core (.line v) => v < uarts
  | .input | .cycle _ | .core .trig | .core .strobe | .core (.wordOut _) | .logic _ => true

/-- The legal values of one UART_CFG entry of a core with `uarts` of them (R9, R12): N ≥ 1, K ≥ 1, BYTE an N-bit
constant, `send` from somewhere the core has. -/
def UartCfg.legal (uarts : Nat) (c : UartCfg) : Bool :=
  1 ≤ c.n && 1 ≤ c.k && c.byte < 2 ^ c.n && c.send.legal uarts

/-- The legal values of every parameter (R9 to R13, U8, U19). -/
def Params.legal (c : Params) : Bool :=
  1 ≤ c.aw && (c.d == 2 ^ c.aw && (c.w == 8 && (2 ≤ c.ddiv && (c.minPdw ≤ c.pdw && (!c.err && (c.syncStages != 1 &&
  (c.links == 1 && (c.replayInit.length ≤ c.d && (Machine.Mem.wf c.captureInit &&
  (Machine.Mem.within c.d c.captureInit && (c.replayLen < c.d && c.uarts.all (UartCfg.legal c.uarts.length))))))))))))

/-- The configuration State.reset carries: the values R9 and R11 give for this hardware; for the OPEN parameters the
values of log 1 (DESIGN CHOICE). -/
def Params.hardware : Params where
  aw := 11
  d := 2048
  w := 8
  ddiv := 2
  pdw := 1
  err := false
  clocking := .dual
  syncStages := 0
  rdw := .any
  links := 1
  replayInit := []
  captureInit := []
  replayLen := 0
  trigger := .wave ⟨[], []⟩
  uarts := [⟨8, 217, 0, .input⟩]

end Sys2Proof
end

