-- ==== Sys2Proof/Machine/Blocks.lean ====
section
/-! DEFINITION. The registers of each block (R24 to R29) and their reset values (R145). The names are the spec's. -/

namespace Sys2Proof.Machine

/-- BTX state (R24). -/
structure Btx where
  sr : Word
  bc : Word
  dc : Word
deriving DecidableEq, Repr

inductive LrxState where
  | idle
  | capture
deriving DecidableEq, Repr

/-- LRX state (R25). -/
structure Lrx where
  state : LrxState
  cnt : Word
  frameAvail : Bool
  frameLen : Word
  wdata : Byte
deriving DecidableEq, Repr

inductive LtxState where
  | idle
  | data
deriving DecidableEq, Repr

/-- LTX state (R26). -/
structure Ltx where
  state : LtxState
  len : Word
  raddr : Word
  en : Bool
deriving DecidableEq, Repr

/-- The states of PDM. The code `Q = 11` of R64 does not exist (R68, D19). -/
inductive PdmState where
  | idle
  | data
  | wait
deriving DecidableEq, Repr

/-- PDM state (R27). -/
structure Pdm where
  state : PdmState
  len : Word
  raddr : Word
  dc : Word
  word : Byte
  strobe : Bool
deriving DecidableEq, Repr

/-- What the model keeps of one crossing (R29, R125). `cur` is the driver's own register (`State.cur`). -/
structure Crossing where
  /-- the driver's value before its most recent change -/
  prev : Word
  /-- `U`: the driver changed at a source edge after the destination's previous edge -/
  changed : Bool
  /-- the synchronizer stages `s[1] .. s[SYNC_STAGES]`, in that order -/
  chain : List Word
  /-- MODEL: what the destination reads at the edge being performed (`sample` of R126 to R129) -/
  sample : Word
deriving DecidableEq, Repr

/-- `sr` all ones (source), `bc` and `dc` 0 (D7). -/
def Btx.reset (c : UartCfg) : Btx := ⟨Word.ones (c.n + 2), Word.ofNat c.bcw 0, Word.ofNat c.dcw 0⟩

/-- `IDLE` (source), the rest 0 (D7). -/
def Lrx.reset (c : Params) : Lrx := ⟨.idle, Word.ofNat c.aw 0, false, Word.ofNat c.aw 0, 0#8⟩

/-- `IDLE` (source), the rest 0 (D7). -/
def Ltx.reset (c : Params) : Ltx := ⟨.idle, Word.ofNat c.aw 0, Word.ofNat c.aw 0, false⟩

/-- `IDLE` (source), the rest 0 (D7). -/
def Pdm.reset (c : Params) : Pdm :=
  ⟨.idle, Word.ofNat c.aw 0, Word.ofNat c.aw 0, Word.ofNat c.pdw 0, 0#8, false⟩

/-- The width of a crossing (R124). -/
def Params.crossingWidth (c : Params) : CrossingId → Nat
  | .x1 => 1
  | .x2 => c.aw
  | .x3 => 1

/-- Every stage 0 (R29, D7), no change pending, and 0 for the model's own values (log 7). -/
def Crossing.reset (c : Params) (x : CrossingId) : Crossing :=
  let zero := Word.ofNat (Params.crossingWidth c x) 0
  ⟨zero, false, List.replicate c.syncStages zero, zero⟩

end Sys2Proof.Machine
end

