-- ==== Sys2Proof/Machine/Stimulus.lean ====
section
/-! DEFINITION. What comes from outside (R131): the edges of the clocks in the order they happen (R122), the changes of
the inputs, and the draws (R17); what is not named is free. Then the stimulus scripts of R70 and R71, written as such
lists. -/

namespace Sys2Proof.Machine

/-- Which clock ticks: `sys` or `rx` under DUAL, `clk` under SINGLE (R70, R121). -/
inductive Domain where
  | sys
  | rx
  | clk
deriving DecidableEq, Repr

/-- A new level of one input. The value is a number, so that a script can drive one too wide (R134). -/
inductive Drive where
  | rxData (v : Nat)
  | rxCtl (v : Nat)
  | send (u : Nat) (v : Nat)
deriving DecidableEq, Repr

/-- The levels of the inputs in the current cycle (R24, R25, R56); `send` has one entry per BTX instance. -/
structure Inputs where
  rxData : Byte
  rxCtl : BitVec 2
  send : List Bool
deriving DecidableEq, Repr

/-- The draws of one edge, one for each site (R17). -/
structure EdgeDraw where
  x1 : Resolve
  x2 : Resolve
  x3 : Resolve
  capRead : Resolve
deriving DecidableEq, Repr

/-- One edge to come: its clock, the inputs that change for the cycle it ends, and its draws (none: free values). -/
structure Event where
  edge : Domain
  drive : List Drive
  draw : Option EdgeDraw
deriving DecidableEq, Repr

/-- All inputs start at 0 (R70). -/
def Inputs.reset (c : Params) : Inputs := ⟨0#8, 0#2, List.replicate c.uarts.length false⟩

/-- An input keeps its level until a drive changes it (R70). -/
def Inputs.apply (i : Inputs) : Drive → Inputs
  | .rxData v => { i with rxData := BitVec.ofNat 8 v }
  | .rxCtl v => { i with rxCtl := BitVec.ofNat 2 v }
  | .send u v => { i with send := i.send.set u (v % 2 == 1) }

/-- The drives of one cycle, in the order of their list. DESIGN CHOICE (log 22): where two drive one input in the same
cycle, the later one decides. -/
def Inputs.applyAll (i : Inputs) (ds : List Drive) : Inputs := ds.foldl Inputs.apply i

/-- A drive that fits its input (R134, U20), whichever domain's edge it stands at (log 23); a `send` is an input only
where UART_CFG makes it one (R131; log 16). -/
def Drive.legal (c : Params) : Drive → Bool
  | .rxData v => v < 2 ^ 8
  | .rxCtl v => v < 2 ^ 2
  | .send u v =>
    v < 2 &&
      match c.uarts[u]? with
      | some i => i.send == .input
      | none => false

/-- A clock that this configuration has (R11; log 16). -/
def Domain.legal (c : Params) : Domain → Bool
  | .sys | .rx => c.clocking == .dual
  | .clk => c.clocking == .single

/-- An edge of a clock the configuration has, with drives that fit. DESIGN CHOICE (log 23): a drive may stand at an edge
of the other domain; its level then holds from the cycle that edge ends, and the input's own domain first reads it at its
next edge. -/
def Event.legal (c : Params) (e : Event) : Bool := e.edge.legal c && e.drive.all (Drive.legal c)

/-- Where edge `n` of a free interleaving stands: which sys edge comes next, and how many rx edges come before it. -/
def Domain.freePlace : Nat → Nat × Nat
  | 0 => (0, Config.freeRxBurst 0)
  | n + 1 =>
    match Domain.freePlace n with
    | (m, 0) => (m + 1, Config.freeRxBurst (m + 1))
    | (m, k + 1) => (m, k)

/-- The clock of an edge that no stimulus names (log 4): either one under DUAL, with finitely many rx edges between two
sys edges (R122's fairness; the rx clock may stop for good). -/
def Domain.free (c : Params) (n : Nat) : Domain :=
  match c.clocking with
  | .dual => if (Domain.freePlace n).2 = 0 then .sys else .rx
  | .single => .clk

/-- Any levels of the link inputs (R131; log 4). -/
def Drive.freeLink (n : Nat) : List Drive :=
  [.rxData (Config.freeRxData n).toNat, .rxCtl (Config.freeRxCtl n).toNat]

/-- Any levels of the `send` inputs that UART_CFG has (R131; log 4). -/
def Drive.freeSends (c : Params) (n : Nat) : List Drive :=
  ((List.range c.uarts.length).map fun u => Drive.send u (Config.freeSend u n).toNat).filter (Drive.legal c)

/-- Edge `n` where no stimulus names it (log 4): any clock ticks, the inputs of its domain have any levels, and the draws
are free. -/
def Event.free (c : Params) (n : Nat) : Event where
  edge := Domain.free c n
  drive :=
    match Domain.free c n with
    | .sys => Drive.freeSends c n
    | .rx => Drive.freeLink n
    | .clk => Drive.freeLink n ++ Drive.freeSends c n
  draw := none

/-- `at <dom> <t>: <input>=<value>` (R70). -/
structure At where
  dom : Domain
  cycle : Nat
  drive : Drive
deriving DecidableEq, Repr

/-- The edges of a schedule with the script's drives put on them: the k-th edge of a domain ends its cycle k (R16,
R70), in the order of the script's lines (log 22). `n` counts the edges of each domain so far. -/
def Script.compileFrom (n : Domain → Nat) (ats : List At) : List Domain → List Event
  | [] => []
  | d :: ds =>
    ⟨d, (ats.filter (fun a => a.dom == d && a.cycle == n d)).map At.drive, none⟩ ::
      Script.compileFrom (fun e => if e = d then n d + 1 else n e) ats ds

/-- The stimulus script of R70 over a schedule of edges. -/
def Script.compile (ats : List At) (schedule : List Domain) : List Event :=
  Script.compileFrom (fun _ => 0) ats schedule

/-- `pulse <dom> <t> send` of R71, on BTX instance `u`. -/
def Script.pulse (d : Domain) (t u : Nat) : List At := [⟨d, t, .send u 1⟩, ⟨d, t + 1, .send u 0⟩]

/-- `frame rx <t> <b1,...,bm>` of R71. -/
def Script.frame (d : Domain) : Nat → List Byte → List At
  | t, [] => [⟨d, t, .rxCtl 0⟩]
  | t, b :: bs => ⟨d, t, .rxCtl 1⟩ :: ⟨d, t, .rxData b.toNat⟩ :: Script.frame d (t + 1) bs

/-- `hold <dom> <t> <input>=<v> for <c>` of R71; `before` is the input's previous value. -/
def Script.hold (d : Domain) (t : Nat) (during before : Drive) (c : Nat) : List At :=
  [⟨d, t, during⟩, ⟨d, t + c, before⟩]

end Sys2Proof.Machine
end

