-- ==== Sys2Proof/Machine/State.lean ====
section
/-! DEFINITION. The state of the core (spec/10_state.md), the outcomes of the model that are no hardware events
(R134), and the state right after the reset event (R145). Plain data. -/

namespace Sys2Proof.Machine

/-- All the state: the construction parameters, the registers of every block, the stores, the crossings, and the
model's own view of the environment. -/
structure State where
  /-- the construction parameters (R9 to R12), fixed (R33) -/
  cfg : Params
  /-- the BTX instances, in the order of UART_CFG (R24) -/
  btx : List Btx
  /-- R25 -/
  lrx : Lrx
  /-- R26 -/
  ltx : Ltx
  /-- R27 -/
  pdm : Pdm
  /-- CAPBUF's words (R28) -/
  capbuf : Mem
  /-- REPBUF's words (R28) -/
  repbuf : Mem
  /-- `rdata` of CAPBUF's read port (R28) -/
  capRdata : Byte
  /-- `rdata` of REPBUF's read port (R28) -/
  repRdata : Byte
  /-- crossing X1, `frame_avail` to PDM `start` (R124) -/
  x1 : Crossing
  /-- crossing X2, `frame_len` to PDM `length` (R124) -/
  x2 : Crossing
  /-- crossing X3, `trig` to LTX `start` (R124) -/
  x3 : Crossing
  /-- crossing X4 (R42): the addresses rx wrote since the last sys edge, newest first, each with the byte before its
  most recent write -/
  recent : List Host.Cell
  /-- COMP's cycle counter: sys cycles since reset (R30, R118) -/
  sysCycle : Nat
  /-- MODEL: the levels of the inputs in this cycle (R70) -/
  inp : Inputs
  /-- MODEL: the edges to come that are named (R122; log 5); after them they are free (log 4) -/
  script : List Event
  /-- MODEL: the draws of the edge being performed; none: free values (log 3) -/
  draw : Option EdgeDraw
  /-- MODEL: the number of edges performed, the free values' argument (log 3, log 4) -/
  edges : Nat
deriving DecidableEq, Repr

/-- The faults of the model. The hardware raises none (R132). -/
inductive Fault where
  /-- `CdcMetastable` (R134): raised by CDC.RACE's fault arm on this crossing (R127). SAFE: the run stops where the
  hardware goes on. -/
  | cdcMetastable (x : CrossingId)
deriving DecidableEq, Repr

/-- What the model refuses. -/
inductive Refusal where
  /-- `ParamIllegal` (R13, R134): raised by `step` in a state whose parameters are not legal. SAFE. -/
  | paramIllegal
  /-- `ScriptIllegal` (R134): raised by `step` when the stimulus drives a value wider than its input, an input that
  does not exist, or a clock the configuration does not have (log 16). SAFE. -/
  | scriptIllegal
  /-- Raised by a meaning whose operand names a BTX instance or a synchronizer that the configuration does not have
  (log 14). SAFE: the operation does not exist there. -/
  | noSuchUnit
  /-- Raised by `step` when a selector word matches no row; no state's selector does (log 14). SAFE. -/
  | noSuchRow
  /-- An operation without a meaning. No arm of `exec` answers it. SAFE. -/
  | notModelled (mnemonic : String)
deriving DecidableEq, Repr

/-- The state right after the reset event (R145) of a core constructed with `c`. -/
def State.resetWith (c : Params) : State where
  cfg := c
  btx := c.uarts.map Btx.reset
  lrx := Lrx.reset c
  ltx := Ltx.reset c
  pdm := Pdm.reset c
  capbuf := c.captureInit
  repbuf := Mem.load 0 c.replayInit
  capRdata := 0#8
  repRdata := 0#8
  x1 := Crossing.reset c .x1
  x2 := Crossing.reset c .x2
  x3 := Crossing.reset c .x3
  recent := []
  sysCycle := 0
  inp := Inputs.reset c
  script := []
  draw := none
  edges := 0

/-- Reset of the hardware's own configuration (log 1). -/
def State.reset : State := State.resetWith Params.hardware

end Sys2Proof.Machine
end

