-- ==== Sys2Proof/Syntax.lean ====
section
/-! DEFINITION. The operations of R67 as one inductive type, a constructor for each row of spec/opcode_table.json.
Operands: which BTX instance, which buffer's read port, which crossing. LRX, LTX, PDM and CAPBUF's write port exist once. -/

namespace Sys2Proof

/-- The two buffer instances (R2, R38). -/
inductive BufId where
  | capbuf
  | repbuf
deriving DecidableEq, Repr

inductive Instr where
  | btxIdle (u : Nat)
  | btxLoad (u : Nat)
  | btxHold (u : Nat)
  | btxShift (u : Nat)
  | lrxIdle
  | lrxStart
  | lrxEnd
  | lrxCapture
  | lrxPipe
  | ltxIdle
  | ltxStart
  | ltxStep
  | ltxLast
  | pdmIdle
  | pdmStart
  | pdmFetch
  | pdmCount
  | pdmNext
  | pdmDone
  | memWrite
  | memNowrite
  | memRead (b : BufId)
  | cdcDirect (x : CrossingId)
  | cdcRace (x : CrossingId)
  | syncShift (x : CrossingId)
  | syncRace (x : CrossingId)
deriving DecidableEq, Repr

end Sys2Proof
end

