-- ==== Sys2Proof/Machine/Operands.lean ====
section
/-! DEFINITION. What the operations read: the inputs of each block, as COMP wires them (R117), the drivers of the
crossings (R124, R125), the drives of the buffer ports (R38, R84). -/

namespace Sys2Proof.Machine

/-- `serial_out := sr[0]` (R73). -/
def Btx.serialOut (b : Btx) : Bool := b.sr.bit 0

/-- The state code `Q` of PDM, its high and its low bit (R64). -/
def PdmState.code : PdmState → Bool × Bool
  | .idle => (false, false)
  | .data => (false, true)
  | .wait => (true, false)

/-- `trig(t) = TRIGGER(t)` in the current sys cycle (R118). -/
def State.trig (s : State) : Bool := s.cfg.trigger.at s.sysCycle

/-- The registers and inputs of the sys domain, as combinational logic sees them (log 21). -/
def State.sysView (s : State) : SysView where
  sysCycle := s.sysCycle
  trig := s.trig
  uarts := s.btx.map fun b => (b.sr, b.bc, b.dc)
  pdmCode := s.pdm.state.code
  pdmLen := s.pdm.len
  pdmRaddr := s.pdm.raddr
  pdmDc := s.pdm.dc
  word := s.pdm.word
  strobe := s.pdm.strobe
  capRdata := s.capRdata
  sendInputs := s.inp.send

/-- The level of a signal of the core in this sys cycle. -/
def State.coreSignal (s : State) : CoreSignal → Bool
  | .trig => s.trig
  | .strobe => s.pdm.strobe
  | .wordOut i => s.pdm.word.getLsbD i
  | .line v => (s.btx[v]?.map Btx.serialOut).getD true

/-- `send` of BTX instance `u` in this sys cycle, from the source UART_CFG gives it (R119; log 21). -/
def State.sendLevel (s : State) (u : Nat) : Bool :=
  match s.cfg.uarts[u]? with
  | some c =>
    match c.send with
    | .input => s.inp.send.getD u false
    | .cycle f => f.at s.sysCycle
    | .core x => s.coreSignal x
    | .logic k => Config.freeLogic k s.sysView
  | none => false

/-- `V`, the validity line `rx_ctl[0]` (R56). `rx_ctl[1]` is read by nothing (R93). -/
def State.validity (s : State) : Bool := s.inp.rxCtl.getLsbD 0

/-- `cur` of a crossing: its driver's value (R124, R125). -/
def State.cur (s : State) : CrossingId → Word
  | .x1 => Word.ofBool s.lrx.frameAvail
  | .x2 => s.lrx.frameLen
  | .x3 => Word.ofBool s.trig

/-- The record of a crossing. -/
def State.crossing (s : State) : CrossingId → Crossing
  | .x1 => s.x1
  | .x2 => s.x2
  | .x3 => s.x3

/-- Whether a destination register reads the crossing at this edge: PDM reads X1 and X2 in `IDLE`, LTX reads X3 in
`IDLE` (R127, A9). -/
def State.reads (s : State) : CrossingId → Bool
  | .x1 | .x2 => s.pdm.state = .idle
  | .x3 => s.ltx.state = .idle

/-- PDM `start`, from X1 (R117). -/
def State.pdmStart (s : State) : Bool := s.x1.sample.asserted

/-- PDM `length`, from X2 (R117). -/
def State.pdmLength (s : State) : Word := s.x2.sample

/-- LTX `start`, from X3 (R117). -/
def State.ltxStart (s : State) : Bool := s.x3.sample.asserted

/-- LTX `frame_length`, the constant REPLAY_LEN (R117). -/
def State.ltxFrameLength (s : State) : Word := Word.ofNat s.cfg.aw s.cfg.replayLen

/-- `wen := (lrx_state == CAPTURE)` (R84). -/
def State.wen (s : State) : Bool := s.lrx.state = .capture

/-- `waddr := cnt` (R84). -/
def State.waddr (s : State) : Nat := s.lrx.cnt.toNat

/-- `wdatap := wdata` (R84). -/
def State.wdatap (s : State) : Byte := s.lrx.wdata

/-- The store of a buffer. -/
def State.store (s : State) : BufId → Mem
  | .capbuf => s.capbuf
  | .repbuf => s.repbuf

/-- The address at a buffer's read port: its reader's address register (R28, R117). -/
def State.raddr (s : State) : BufId → Nat
  | .capbuf => s.pdm.raddr.toNat
  | .repbuf => s.ltx.raddr.toNat

/-- The data register of a buffer's read port (R28). -/
def State.rdata (s : State) : BufId → Byte
  | .capbuf => s.capRdata
  | .repbuf => s.repRdata

end Sys2Proof.Machine
end

