-- ==== Sys2Proof/Machine/Ops.lean ====
section
/-! DEFINITION. The operations the meanings share: following an outcome, draws (R17), `raise` (R17, R134), the port
accesses of the buffers (R39 to R42), one BTX instance's update, the crossings' records (R125 to R129). The core has no
exception entry and no return from one (R132, R138), so there is none here. -/

namespace Sys2Proof.Machine

/-- What a meaning or a step answers. -/
abbrev Result (α : Type) := Host.Outcome α Fault Refusal

/-- Go on from a next value; a fault or a refusal stands (R134: it is kept). -/
def Result.andThen {α β : Type} (o : Result α) (f : α → Result β) : Result β :=
  match o with
  | .next a => f a
  | .fault r => .fault r
  | .refused r => .refused r

/-- `raise Fault(name)` (R17): the model stops at the named fault. -/
def raise (f : Fault) : Result State := .fault f

/-- The draw of a site within an edge's draws. -/
def EdgeDraw.at (d : EdgeDraw) : DrawSite → Resolve
  | .crossing .x1 => d.x1
  | .crossing .x2 => d.x2
  | .crossing .x3 => d.x3
  | .capRead => d.capRead

/-- The draw at a site of the edge being performed: the one the stimulus names, or the free value (R17; log 3). -/
def State.resolve (s : State) (site : DrawSite) : Resolve :=
  match s.draw with
  | some d => d.at site
  | none => Config.freeResolve site s.edges

/-- The byte before the most recent write of rx to `a` since the last sys edge, if there was one (R42). -/
def recentByte : List Host.Cell → Nat → Option Byte
  | [], _ => none
  | (b, v) :: r, a => if a = b then some v else recentByte r a

/-- `MemRead` at a read port (R40): the word at the reader's address, drawn where the spec draws it. REPBUF has no
write port. CAPBUF under SINGLE: RDW when the write port writes that address at this edge (R41). CAPBUF under DUAL: a
draw when rx wrote that address since the last sys edge (R42). -/
def State.readPort (s : State) : BufId → Byte
  | .repbuf => s.repbuf.read (s.raddr .repbuf)
  | .capbuf =>
    let a := s.raddr .capbuf
    let now := s.capbuf.read a
    match s.cfg.clocking with
    | .single =>
      if s.wen = true ∧ a = s.waddr then
        match s.cfg.rdw with
        | .old => now
        | .new => s.wdatap
        | .any => drawBits (s.resolve .capRead).pick now s.wdatap
      else now
    | .dual =>
      match recentByte s.recent a with
      | some before => drawBits (s.resolve .capRead).pick before now
      | none => now

/-- `MemWrite(CAPBUF, waddr, 1, wdatap)` (R39) with the record of X4 (R42): under DUAL the address and the byte it held
are remembered until the next sys edge. -/
def State.writeCapbuf (s : State) : State :=
  { s with
    capbuf := s.capbuf.write s.waddr s.wdatap
    recent :=
      match s.cfg.clocking with
      | .dual => (s.waddr, s.capbuf.read s.waddr) :: s.recent.filter (fun c => c.1 != s.waddr)
      | .single => s.recent }

/-- Give BTX instance `u` its next registers, computed from its UART_CFG entry and its registers (R22: no other block
changes). An instance the configuration does not have refuses (log 14). -/
def State.updateBtx (s : State) (u : Nat) (f : UartCfg → Btx → Btx) : Result State :=
  match s.cfg.uarts[u]?, s.btx[u]? with
  | some c, some b => .next { s with btx := s.btx.set u (f c b) }
  | _, _ => .refused .noSuchUnit

/-- The state with a crossing's record replaced. -/
def State.setCrossing (s : State) (x : CrossingId) (c : Crossing) : State :=
  match x with
  | .x1 => { s with x1 := c }
  | .x2 => { s with x2 := c }
  | .x3 => { s with x3 := c }

/-- `s[1] <- v`, `s[k] <- s[k-1]`, `sample := s[S]`, and then `U <- 0` (R125, R128, R129). Without a chain there is no
such operation (log 14). -/
def State.shiftChain (s : State) (x : CrossingId) (v : Word) : Result State :=
  match (s.crossing x).chain.getLast? with
  | some last =>
    .next (s.setCrossing x
      { s.crossing x with chain := v :: (s.crossing x).chain.dropLast, changed := false, sample := last })
  | none => .refused .noSuchUnit

/-- The value drawn of a changing crossing: each bit the old or the new one (R127, R129). -/
def State.drawCrossing (s : State) (x : CrossingId) : Word :=
  Word.draw (s.resolve (.crossing x)).pick (s.crossing x).prev (s.cur x)

/-- The bookkeeping of a source edge (R125): `before` is the state of the cycle the edge ends, `s` the state after it.
A driver that changed leaves its old value in `prev` and sets `U`. -/
def State.noteChange (before : State) (x : CrossingId) (s : State) : State :=
  if s.cur x = before.cur x then s
  else s.setCrossing x { s.crossing x with prev := before.cur x, changed := true }

end Sys2Proof.Machine
end

