-- ==== Sys2Proof/Machine/BufferMemory.lean ====
section
/-! DEFINITION. The meanings of MEM.WRITE, MEM.NOWRITE and MEM.READ (spec/20_memory.md). The core has one write port,
CAPBUF's (R38). -/

namespace Sys2Proof.Machine

/-- MEM.WRITE (R39): `mem[waddr] <- wdatap`. -/
def execMemWrite (s : State) : Host.Outcome State Fault Refusal :=
  .next s.writeCapbuf

/-- MEM.NOWRITE (R39): nothing. -/
def execMemNowrite (s : State) : Host.Outcome State Fault Refusal :=
  .next s

/-- MEM.READ (R40): `rdata <- MemRead(B, raddr, 1)`. -/
def execMemRead (b : BufId) (s : State) : Host.Outcome State Fault Refusal :=
  match b with
  | .capbuf => .next { s with capRdata := s.readPort .capbuf }
  | .repbuf => .next { s with repRdata := s.readPort .repbuf }

end Sys2Proof.Machine
end

