-- ==== Sys2Proof/Machine/ByteTransmitter.lean ====
section
/-! DEFINITION. The meanings of BTX.IDLE, BTX.LOAD, BTX.HOLD and BTX.SHIFT (spec/40_byte_transmitter.md). -/

namespace Sys2Proof.Machine

/-- BTX.IDLE (R74): everything holds. -/
def execBtxIdle (u : Nat) (s : State) : Host.Outcome State Fault Refusal :=
  s.updateBtx u fun _ b => b

/-- BTX.LOAD (R75): `sr <- {1, data, 0}`, `bc <- N + 2`, `dc <- K - 1`; `data` is BYTE, sampled here only (D17). -/
def execBtxLoad (u : Nat) (s : State) : Host.Outcome State Fault Refusal :=
  s.updateBtx u fun c _ => ⟨Word.serialFrame c.n c.byte, Word.ofNat c.bcw (c.n + 2), Word.ofNat c.dcw (c.k - 1)⟩

/-- BTX.HOLD (R76): `dc <- dc - 1`. -/
def execBtxHold (u : Nat) (s : State) : Host.Outcome State Fault Refusal :=
  s.updateBtx u fun _ b => { b with dc := b.dc.dec }

/-- BTX.SHIFT (R77): `sr <- {1, sr[N+1:1]}`, `bc <- bc - 1`, `dc <- K - 1`. -/
def execBtxShift (u : Nat) (s : State) : Host.Outcome State Fault Refusal :=
  s.updateBtx u fun c b => ⟨b.sr.shiftInOne, b.bc.dec, Word.ofNat c.dcw (c.k - 1)⟩

end Sys2Proof.Machine
end

