-- ==== Sys2Proof/Machine/ClockCrossing.lean ====
section
/-! DEFINITION. The meanings of CDC.DIRECT, CDC.RACE, SYNC.SHIFT and SYNC.RACE
(spec/44_composer_and_cdc.md, R125 to R129). Each ends with `U <- 0`. -/

namespace Sys2Proof.Machine

/-- CDC.DIRECT (R126): `sample := cur`. -/
def execCdcDirect (x : CrossingId) (s : State) : Host.Outcome State Fault Refusal :=
  .next (s.setCrossing x { s.crossing x with changed := false, sample := s.cur x })

/-- CDC.RACE (R127). Where the destination reads the crossing at this edge: by a draw, `CdcMetastable`, or a sample whose
bits are drawn between `prev` and `cur`. Where it does not: no sample, nothing raised. -/
def execCdcRace (x : CrossingId) (s : State) : Host.Outcome State Fault Refusal :=
  if s.reads x then
    if (s.resolve (.crossing x)).fault then raise (.cdcMetastable x)
    else .next (s.setCrossing x { s.crossing x with changed := false, sample := s.drawCrossing x })
  else .next (s.setCrossing x { s.crossing x with changed := false })

/-- SYNC.SHIFT (R128): the chain steps, `s[1] <- cur`. -/
def execSyncShift (x : CrossingId) (s : State) : Host.Outcome State Fault Refusal :=
  s.shiftChain x (s.cur x)

/-- SYNC.RACE (R129): the chain steps, `s[1]` with each bit drawn between `prev` and `cur`. -/
def execSyncRace (x : CrossingId) (s : State) : Host.Outcome State Fault Refusal :=
  s.shiftChain x (s.drawCrossing x)

end Sys2Proof.Machine
end

