-- ==== Sys2Proof/WellFormed.lean ====
section
/-! DEFINITION. When an operation exists in a configuration: the BTX instance it names is there (R12), and a CDC
operation is one its configuration can select (R66: only under DUAL, CDC.* without and SYNC.* with a synchronizer). -/

namespace Sys2Proof

def Instr.wf (c : Params) : Instr → Bool
  | .btxIdle u | .btxLoad u | .btxHold u | .btxShift u => u < c.uarts.length
  | .cdcDirect _ | .cdcRace _ => c.clocking = .dual ∧ c.syncStages < 2
  | .syncShift _ | .syncRace _ => c.clocking = .dual ∧ 2 ≤ c.syncStages
  | .lrxIdle | .lrxStart | .lrxEnd | .lrxCapture | .lrxPipe => true
  | .ltxIdle | .ltxStart | .ltxStep | .ltxLast => true
  | .pdmIdle | .pdmStart | .pdmFetch | .pdmCount | .pdmNext | .pdmDone => true
  | .memWrite | .memNowrite | .memRead _ => true

end Sys2Proof
end

