-- ==== Sys2Proof/Decode.lean ====
section
/-! DEFINITION. The step-selector words of R60 to R66: for each place where a selector word is formed, its width and
its rows (the pairs of match and mask of spec/opcode_table.json), the decoder, and after it the encoder. -/

namespace Sys2Proof

/-- A place where a selector word is formed (R60: one per block instance, port and crossing). LRX.PIPE has a place of
its own, because it runs beside the other LRX operation (R67). -/
inductive Port where
  | btx (u : Nat)
  | lrx
  | pipe
  | ltx
  | pdm
  | capWrite
  | bufRead (b : BufId)
  | cross (x : CrossingId)
deriving DecidableEq, Repr

/-- A row of the operation table: selected when `sel & mask = pat` (R60). -/
structure Row where
  pat : Nat
  mask : Nat
  instr : Instr
deriving DecidableEq, Repr

/-- Why a selector word names no operation. -/
inductive Reject where
  | tooWide  -- it has a bit above its format's width
  | noRow    -- no row of its format matches (R64: Q = 11)
deriving DecidableEq, Repr

/-- The width in bits of the selector word formed at a place (R61 to R66; R67: LRX.PIPE's mask is 0). -/
def Port.width : Port → Nat
  | .btx _ => 3
  | .lrx => 2
  | .pipe => 2
  | .ltx => 3
  | .pdm => 5
  | .capWrite => 1
  | .bufRead _ => 0
  | .cross _ => 2

/-- The rows of the table at a place, in the table's order. -/
def Port.rows : Port → List Row
  | .btx u => [⟨0b000, 0b101, .btxIdle u⟩, ⟨0b001, 0b101, .btxLoad u⟩, ⟨0b100, 0b110, .btxHold u⟩,
      ⟨0b110, 0b110, .btxShift u⟩]
  | .lrx => [⟨0b00, 0b11, .lrxIdle⟩, ⟨0b01, 0b11, .lrxStart⟩, ⟨0b10, 0b11, .lrxEnd⟩, ⟨0b11, 0b11, .lrxCapture⟩]
  | .pipe => [⟨0b00, 0b00, .lrxPipe⟩]
  | .ltx => [⟨0b000, 0b101, .ltxIdle⟩, ⟨0b001, 0b101, .ltxStart⟩, ⟨0b100, 0b110, .ltxStep⟩, ⟨0b110, 0b110, .ltxLast⟩]
  | .pdm => [⟨0b00000, 0b11100, .pdmIdle⟩, ⟨0b00100, 0b11100, .pdmStart⟩, ⟨0b01000, 0b11000, .pdmFetch⟩,
      ⟨0b10000, 0b11010, .pdmCount⟩, ⟨0b10010, 0b11011, .pdmNext⟩, ⟨0b10011, 0b11011, .pdmDone⟩]
  | .capWrite => [⟨0b1, 0b1, .memWrite⟩, ⟨0b0, 0b1, .memNowrite⟩]
  | .bufRead b => [⟨0b0, 0b0, .memRead b⟩]
  | .cross x => [⟨0b00, 0b11, .cdcDirect x⟩, ⟨0b01, 0b11, .cdcRace x⟩, ⟨0b10, 0b11, .syncShift x⟩,
      ⟨0b11, 0b11, .syncRace x⟩]

/-- `(sel & mask) == match` (R60). -/
def Row.matchesWord (r : Row) (sel : Nat) : Bool := sel &&& r.mask = r.pat

/-- The operation the selector word `sel` picks at a place (R60). -/
def decode (p : Port) (sel : Nat) : Except Reject Instr :=
  if sel < 2 ^ p.width then
    match p.rows.find? (fun r => r.matchesWord sel) with
    | some r => .ok r.instr
    | none => .error .noRow
  else .error .tooWide

/-- Where an operation's selector word is formed. -/
def Instr.port : Instr → Port
  | .btxIdle u | .btxLoad u | .btxHold u | .btxShift u => .btx u
  | .lrxIdle | .lrxStart | .lrxEnd | .lrxCapture => .lrx
  | .lrxPipe => .pipe
  | .ltxIdle | .ltxStart | .ltxStep | .ltxLast => .ltx
  | .pdmIdle | .pdmStart | .pdmFetch | .pdmCount | .pdmNext | .pdmDone => .pdm
  | .memWrite | .memNowrite => .capWrite
  | .memRead b => .bufRead b
  | .cdcDirect x | .cdcRace x | .syncShift x | .syncRace x => .cross x

/-- The selector word of an operation with every don't-care bit 0: the `match` of its row. -/
def encode : Instr → Nat
  | .btxIdle _ => 0b000
  | .btxLoad _ => 0b001
  | .btxHold _ => 0b100
  | .btxShift _ => 0b110
  | .lrxIdle => 0b00
  | .lrxStart => 0b01
  | .lrxEnd => 0b10
  | .lrxCapture => 0b11
  | .lrxPipe => 0b00
  | .ltxIdle => 0b000
  | .ltxStart => 0b001
  | .ltxStep => 0b100
  | .ltxLast => 0b110
  | .pdmIdle => 0b00000
  | .pdmStart => 0b00100
  | .pdmFetch => 0b01000
  | .pdmCount => 0b10000
  | .pdmNext => 0b10010
  | .pdmDone => 0b10011
  | .memWrite => 0b1
  | .memNowrite => 0b0
  | .memRead _ => 0b0
  | .cdcDirect _ => 0b00
  | .cdcRace _ => 0b01
  | .syncShift _ => 0b10
  | .syncRace _ => 0b11

/-- The bits of the selector word an operation fixes: the `mask` of its row. -/
def Instr.mask : Instr → Nat
  | .btxIdle _ | .btxLoad _ => 0b101
  | .btxHold _ | .btxShift _ => 0b110
  | .lrxIdle | .lrxStart | .lrxEnd | .lrxCapture => 0b11
  | .lrxPipe => 0
  | .ltxIdle | .ltxStart => 0b101
  | .ltxStep | .ltxLast => 0b110
  | .pdmIdle | .pdmStart => 0b11100
  | .pdmFetch => 0b11000
  | .pdmCount => 0b11010
  | .pdmNext | .pdmDone => 0b11011
  | .memWrite | .memNowrite => 0b1
  | .memRead _ => 0
  | .cdcDirect _ | .cdcRace _ | .syncShift _ | .syncRace _ => 0b11

/-- The places a bare table word may stand at, in the table's order; the places whose rows fix no bit are left out,
because they would take every word. DESIGN CHOICE (log 10). -/
def barePorts : List Port := [.btx 0, .lrx, .ltx, .pdm, .capWrite, .cross .x1]

/-- The first place of a list where the word decodes. -/
def firstDecoded (w : Nat) : List Port → Option Instr
  | [] => none
  | p :: ps =>
    match decode p w with
    | .ok i => some i
    | .error _ => firstDecoded w ps

/-- The operation of a table word given without its format (log 10): a zero-bit word is MEM.READ's; a word that is
the `match` of a row names the first such row; any other word, the first place where it decodes. -/
def decodeTableWord (nbits w : Nat) : Option Instr :=
  if nbits = 0 then some (.memRead .capbuf)
  else
    match (barePorts.flatMap Port.rows).find? (fun r => r.pat == w) with
    | some r => some r.instr
    | none => firstDecoded w barePorts

end Sys2Proof
end

