-- ==== Sys2Proof/Machine/Flags.lean ====
section
/-! DEFINITION. The status signals (R32), the selector words computed from registers and inputs (R61 to R66), and the
boundary outputs (R73, R96, R105, D31). -/

namespace Sys2Proof.Machine

/-- A word from its bits, the most significant first (R14). -/
def selWord (bits : List Bool) : Nat := bits.foldl (fun n b => 2 * n + b.toNat) 0

/-- `B`: `bc != 0` (R61). -/
def Btx.busy (b : Btx) : Bool := b.bc.toNat ≠ 0

/-- `Z`: `dc == 0` (R61). -/
def Btx.divZero (b : Btx) : Bool := b.dc.toNat = 0

/-- BTX-SEL of instance `u` (R61). -/
def State.btxSel (s : State) (u : Nat) : Nat :=
  match s.btx[u]? with
  | some b => selWord [b.busy, b.divZero, s.sendLevel u]
  | none => 0

/-- LRX-SEL (R62). -/
def State.lrxSel (s : State) : Nat := selWord [s.lrx.state = .capture, s.validity]

/-- `E` of LTX, the last-cycle condition (R63, R101). -/
def Ltx.last (l : Ltx) : Bool := l.raddr.toNat = l.len.dec.toNat ∨ l.len.toNat ≤ 1

/-- LTX-SEL (R63). -/
def State.ltxSel (s : State) : Nat := selWord [s.ltx.state = .data, s.ltx.last, s.ltxStart]

/-- `Z` of PDM: `pdm_dc == 0` (R64). -/
def Pdm.divZero (p : Pdm) : Bool := p.dc.toNat = 0

/-- `E` of PDM: `pdm_raddr == pdm_len` (R64). -/
def Pdm.atEnd (p : Pdm) : Bool := p.raddr.toNat = p.len.toNat

/-- PDM-SEL (R64). -/
def State.pdmSel (s : State) : Nat :=
  selWord [(PdmState.code s.pdm.state).1, (PdmState.code s.pdm.state).2, s.pdmStart, s.pdm.divZero, s.pdm.atEnd]

/-- MEMW-SEL (R65). -/
def State.memwSel (s : State) : Nat := selWord [s.wen]

/-- CDC-SEL of a crossing (R66): `Y` is `SYNC_STAGES ≥ 2`, `U` the record's flag. -/
def State.cdcSel (s : State) (x : CrossingId) : Nat := selWord [2 ≤ s.cfg.syncStages, (s.crossing x).changed]

/-- The selector word formed at a place (R60). LRX.PIPE and MEM.READ are selected whatever it is (R65, R67). -/
def State.selector (s : State) : Port → Nat
  | .btx u => s.btxSel u
  | .lrx => s.lrxSel
  | .pipe => s.lrxSel
  | .ltx => s.ltxSel
  | .pdm => s.pdmSel
  | .capWrite => s.memwSel
  | .bufRead _ => 0
  | .cross x => s.cdcSel x

/-- `tx_ctl[0] := en`, `tx_ctl[1] := en XOR ERR` (R96). -/
def State.txCtl (s : State) : BitVec 2 := BitVec.ofBool (s.ltx.en ^^ s.cfg.err) ++ BitVec.ofBool s.ltx.en

/-- Every boundary output (D31). -/
structure Outputs where
  serialOut : List Bool
  frameAvail : Bool
  frameLen : Word
  txData : Byte
  txCtl : BitVec 2
  ready : Bool
  wordOut : Byte
  strobe : Bool
deriving DecidableEq, Repr

/-- The outputs of the current cycle (R73, R25, R96, R105). `tx_data` is not gated by `en` (D15). -/
def State.outputs (s : State) : Outputs where
  serialOut := s.btx.map Btx.serialOut
  frameAvail := s.lrx.frameAvail
  frameLen := s.lrx.frameLen
  txData := s.repRdata
  txCtl := s.txCtl
  ready := s.ltx.state = .idle
  wordOut := s.pdm.word
  strobe := s.pdm.strobe

end Sys2Proof.Machine
end

