-- ==== Sys2Proof/Machine/LinkReceiver.lean ====
section
/-! DEFINITION. The meanings of LRX.IDLE, LRX.START, LRX.END, LRX.CAPTURE and LRX.PIPE (spec/41_link_receiver.md). -/

namespace Sys2Proof.Machine

/-- LRX.PIPE (R85): `wdata <- rx_data`, at every rx edge. -/
def execLrxPipe (s : State) : Host.Outcome State Fault Refusal :=
  .next { s with lrx := { s.lrx with wdata := s.inp.rxData } }

/-- LRX.IDLE (R86): `frame_avail`, `frame_len` and `cnt` to 0. -/
def execLrxIdle (s : State) : Host.Outcome State Fault Refusal :=
  .next { s with
    lrx := { s.lrx with frameAvail := false, frameLen := Word.ofNat s.cfg.aw 0, cnt := Word.ofNat s.cfg.aw 0 } }

/-- LRX.START (R87): outputs to 0, `cnt <- 1`, to `CAPTURE`. -/
def execLrxStart (s : State) : Host.Outcome State Fault Refusal :=
  .next { s with
    lrx := { s.lrx with
      frameAvail := false, frameLen := Word.ofNat s.cfg.aw 0, cnt := Word.ofNat s.cfg.aw 1, state := .capture } }

/-- LRX.CAPTURE (R88): `MemWrite(CAPBUF, cnt, 1, wdata)`, the write MEM.WRITE makes at this edge (log 13), and
`cnt <- cnt + 1`. -/
def execLrxCapture (s : State) : Host.Outcome State Fault Refusal :=
  .next { s.writeCapbuf with lrx := { s.lrx with cnt := s.lrx.cnt.inc } }

/-- LRX.END (R89): the frame's last byte is written as by MEM.WRITE (log 13), `frame_len <- cnt`, `frame_avail <- 1`,
`cnt <- 0` (which overrides the increment), to `IDLE`. -/
def execLrxEnd (s : State) : Host.Outcome State Fault Refusal :=
  .next { s.writeCapbuf with
    lrx := { s.lrx with frameLen := s.lrx.cnt, frameAvail := true, cnt := Word.ofNat s.cfg.aw 0, state := .idle } }

end Sys2Proof.Machine
end

