-- ==== Sys2Proof/Machine/LinkTransmitter.lean ====
section
/-! DEFINITION. The meanings of LTX.IDLE, LTX.START, LTX.STEP and LTX.LAST (spec/42_link_transmitter.md). -/

namespace Sys2Proof.Machine

/-- LTX.IDLE (R97): `ltx_len <- frame_length`, `en <- 0`, `ltx_raddr <- 0`. -/
def execLtxIdle (s : State) : Host.Outcome State Fault Refusal :=
  .next { s with ltx := { s.ltx with len := s.ltxFrameLength, en := false, raddr := Word.ofNat s.cfg.aw 0 } }

/-- LTX.START (R98): `ltx_len <- frame_length`, `en <- 1`, `ltx_raddr <- 1`, to `DATA`. -/
def execLtxStart (s : State) : Host.Outcome State Fault Refusal :=
  .next { s with ltx := ⟨.data, s.ltxFrameLength, Word.ofNat s.cfg.aw 1, true⟩ }

/-- LTX.STEP (R99): `ltx_raddr <- ltx_raddr + 1`; `en` and `ltx_len` hold. -/
def execLtxStep (s : State) : Host.Outcome State Fault Refusal :=
  .next { s with ltx := { s.ltx with raddr := s.ltx.raddr.inc } }

/-- LTX.LAST (R100): `ltx_raddr <- ltx_raddr + 1`, to `IDLE`; `en` holds at 1 for one more cycle. -/
def execLtxLast (s : State) : Host.Outcome State Fault Refusal :=
  .next { s with ltx := { s.ltx with raddr := s.ltx.raddr.inc, state := .idle } }

end Sys2Proof.Machine
end

