-- ==== Sys2Proof/Machine/ParallelDumper.lean ====
section
/-! DEFINITION. The meanings of PDM.IDLE, PDM.START, PDM.FETCH, PDM.COUNT, PDM.NEXT and PDM.DONE
(spec/43_parallel_dumper.md). -/

namespace Sys2Proof.Machine

/-- PDM.IDLE (R106): `pdm_len <- length`, `pdm_raddr <- 0`, `word <- 0`; `strobe` and `pdm_dc` hold. -/
def execPdmIdle (s : State) : Host.Outcome State Fault Refusal :=
  .next { s with pdm := { s.pdm with len := s.pdmLength, raddr := Word.ofNat s.cfg.aw 0, word := 0#8 } }

/-- PDM.START (R107): as PDM.IDLE, to `DATA`. -/
def execPdmStart (s : State) : Host.Outcome State Fault Refusal :=
  .next { s with
    pdm := { s.pdm with len := s.pdmLength, raddr := Word.ofNat s.cfg.aw 0, word := 0#8, state := .data } }

/-- PDM.FETCH (R108): `pdm_dc <- DDIV - 2`, `pdm_raddr <- pdm_raddr + 1`, `word <- rdata`, `strobe <- 0`, to `WAIT`. -/
def execPdmFetch (s : State) : Host.Outcome State Fault Refusal :=
  .next { s with
    pdm := { s.pdm with
      dc := Word.ofNat s.cfg.pdw (s.cfg.ddiv - 2), raddr := s.pdm.raddr.inc, word := s.rdata .capbuf, strobe := false,
      state := .wait } }

/-- PDM.COUNT (R109): `pdm_dc <- pdm_dc - 1`, `strobe <- 1`. -/
def execPdmCount (s : State) : Host.Outcome State Fault Refusal :=
  .next { s with pdm := { s.pdm with dc := s.pdm.dc.dec, strobe := true } }

/-- PDM.NEXT (R110): `pdm_dc <- pdm_dc - 1`, `strobe <- 1`, to `DATA`. -/
def execPdmNext (s : State) : Host.Outcome State Fault Refusal :=
  .next { s with pdm := { s.pdm with dc := s.pdm.dc.dec, strobe := true, state := .data } }

/-- PDM.DONE (R111): `pdm_dc <- pdm_dc - 1`, `strobe <- 1`, to `IDLE`. -/
def execPdmDone (s : State) : Host.Outcome State Fault Refusal :=
  .next { s with pdm := { s.pdm with dc := s.pdm.dc.dec, strobe := true, state := .idle } }

end Sys2Proof.Machine
end

