-- ==== Sys2Proof/Machine/Dispatch.lean ====
section
/-! DEFINITION. The dispatch: one arm for each operation of spec/opcode_table.json, one call of its meaning. -/

namespace Sys2Proof.Machine
open Sys2Proof

def exec (i : Instr) (s : State) : Host.Outcome State Fault Refusal :=
  match i with
  | .btxIdle u => Sys2Proof.Machine.execBtxIdle u s
  | .btxLoad u => Sys2Proof.Machine.execBtxLoad u s
  | .btxHold u => Sys2Proof.Machine.execBtxHold u s
  | .btxShift u => Sys2Proof.Machine.execBtxShift u s
  | .lrxIdle => Sys2Proof.Machine.execLrxIdle s
  | .lrxStart => Sys2Proof.Machine.execLrxStart s
  | .lrxEnd => Sys2Proof.Machine.execLrxEnd s
  | .lrxCapture => Sys2Proof.Machine.execLrxCapture s
  | .lrxPipe => Sys2Proof.Machine.execLrxPipe s
  | .ltxIdle => Sys2Proof.Machine.execLtxIdle s
  | .ltxStart => Sys2Proof.Machine.execLtxStart s
  | .ltxStep => Sys2Proof.Machine.execLtxStep s
  | .ltxLast => Sys2Proof.Machine.execLtxLast s
  | .pdmIdle => Sys2Proof.Machine.execPdmIdle s
  | .pdmStart => Sys2Proof.Machine.execPdmStart s
  | .pdmFetch => Sys2Proof.Machine.execPdmFetch s
  | .pdmCount => Sys2Proof.Machine.execPdmCount s
  | .pdmNext => Sys2Proof.Machine.execPdmNext s
  | .pdmDone => Sys2Proof.Machine.execPdmDone s
  | .memWrite => Sys2Proof.Machine.execMemWrite s
  | .memNowrite => Sys2Proof.Machine.execMemNowrite s
  | .memRead b => Sys2Proof.Machine.execMemRead b s
  | .cdcDirect x => Sys2Proof.Machine.execCdcDirect x s
  | .cdcRace x => Sys2Proof.Machine.execCdcRace x s
  | .syncShift x => Sys2Proof.Machine.execSyncShift x s
  | .syncRace x => Sys2Proof.Machine.execSyncRace x s

end Sys2Proof.Machine
end

