-- ==== Sys2Proof/Machine/Edge.lean ====
section
/-! DEFINITION. One clock edge (R20, R121 to R123). Every block of the edge's domain performs the operation its selector
word picks, ALL FROM ONE STATE, that of the cycle the edge ends; the next state takes from each operation's answer the
registers its block owns (R20, R22; log 15). The crossings the domain reads are sampled first, because a sample is
combinational (R126 to R129). -/

namespace Sys2Proof.Machine
open Sys2Proof

/-- Perform the one operation the selector word at a place picks (R60). -/
def perform (p : Port) (s : State) : Result State :=
  match decode p (s.selector p) with
  | .ok i => exec i s
  | .error _ => .refused .noSuchRow

/-- The next registers of the `n` BTX instances from instance `u` on, each computed from the same state. -/
def nextBtx (s : State) : Nat → Nat → Result (List Btx)
  | 0, _ => .next []
  | n + 1, u =>
    (perform (.btx u) s).andThen fun a =>
      (nextBtx s n (u + 1)).andThen fun rest => .next (a.btx[u]?.toList ++ rest)

/-- The blocks of the sys row of R121: PDM, the CAPBUF read port, the BTX instances, COMP's counter. The X4 window
closes (R42). -/
def sysBlocks (s : State) : Result State :=
  (perform .pdm s).andThen fun dumper =>
    (perform (.bufRead .capbuf) s).andThen fun port =>
      (nextBtx s s.btx.length 0).andThen fun uarts =>
        .next { s with
          pdm := dumper.pdm, capRdata := port.capRdata, btx := uarts, sysCycle := s.sysCycle + 1, recent := [] }

/-- The blocks of the rx row of R121: the CAPBUF write port, LRX with LRX.PIPE, LTX, the REPBUF read port. -/
def rxBlocks (s : State) : Result State :=
  (perform .capWrite s).andThen fun written =>
    (perform .lrx s).andThen fun framer =>
      (perform .pipe s).andThen fun piped =>
        (perform .ltx s).andThen fun sender =>
          (perform (.bufRead .repbuf) s).andThen fun port =>
            .next { s with
              capbuf := written.capbuf, recent := written.recent,
              lrx := { framer.lrx with wdata := piped.lrx.wdata },
              ltx := sender.ltx, repRdata := port.repRdata }

/-- A sys edge under DUAL (R122): X1 and X2 are sampled, the sys blocks step, and a change of `trig` is noted on X3. -/
def sysEdge (s : State) : Result State :=
  (perform (.cross .x1) s).andThen fun s₁ =>
    (perform (.cross .x2) s₁).andThen fun s₂ =>
      (sysBlocks s₂).andThen fun t => .next (s₂.noteChange .x3 t)

/-- An rx edge under DUAL (R122): X3 is sampled, the rx blocks step, and changes of `frame_avail` and `frame_len` are
noted on X1 and X2. -/
def rxEdge (s : State) : Result State :=
  (perform (.cross .x3) s).andThen fun s₁ =>
    (rxBlocks s₁).andThen fun t => .next (s₁.noteChange .x2 (s₁.noteChange .x1 t))

/-- Under SINGLE a crossing is a plain wire: the reader sees the driver's value of the same cycle (R123). -/
def State.wire (s : State) (x : CrossingId) : State :=
  s.setCrossing x { s.crossing x with sample := s.cur x }

/-- An edge of the one clock under SINGLE (R123): every block steps from the same state. -/
def clkEdge (s : State) : Result State :=
  let s₁ := ((s.wire .x1).wire .x2).wire .x3
  (sysBlocks s₁).andThen fun a =>
    (rxBlocks s₁).andThen fun b =>
      .next { b with pdm := a.pdm, capRdata := a.capRdata, btx := a.btx, sysCycle := a.sysCycle }

/-- The edge that comes next: the one the stimulus names, or any (R122; log 4). -/
def State.event (s : State) : Event := s.script.head?.getD (Event.free s.cfg s.edges)

/-- The cycle that the next edge ends: its inputs and draws are in place (R16, R70; an input of the other domain too,
log 23). -/
def State.begin (s : State) : State :=
  { s with script := s.script.tail, inp := s.inp.applyAll s.event.drive, draw := s.event.draw }

/-- One edge of a domain from the state of the cycle it ends. -/
def edgeOf : Domain → State → Result State
  | .sys, s => sysEdge s
  | .rx, s => rxEdge s
  | .clk, s => clkEdge s

/-- The next edge, or the refusal of the configuration or of the stimulus (R13, R17, R134). -/
def runEdge (s : State) : Result State :=
  if s.cfg.legal then
    if s.script.all (Event.legal s.cfg) then
      (edgeOf s.event.edge s.begin).andThen fun t => .next { t with edges := t.edges + 1 }
    else .refused .scriptIllegal
  else .refused .paramIllegal

end Sys2Proof.Machine
end

