-- ==== Sys2Proof/Machine/Place.lean ====
section
/-! DEFINITION. Putting an operation where the next edge performs it (log 11): the registers and inputs from which a
selector word is formed are set so that it has the given value, and an edge of the block's clock is put first in the
stimulus. -/

namespace Sys2Proof.Machine
open Sys2Proof

/-- Draws under which no race takes its fault arm and every bit keeps its old value (log 11). -/
def quietDraw : EdgeDraw := ⟨⟨false, 0⟩, ⟨false, 0⟩, ⟨false, 0⟩, ⟨false, 0⟩⟩

/-- An edge of the domain first in the stimulus (`clk` under SINGLE), with these input changes. -/
def State.placeEdge (s : State) (d : Domain) (ds : List Drive) : State :=
  { s with script := ⟨match s.cfg.clocking with | .dual => d | .single => .clk, ds, some quietDraw⟩ :: s.script }

/-- A crossing whose destination will read the one-bit value `v`, when its driver has it: no change pending, and the
chain holding it. -/
def settled (c : Params) (x : Crossing) (v : Bool) : Crossing :=
  { x with changed := false, chain := List.replicate c.syncStages (Word.ofBool v) }

/-- BTX-SEL of instance 0 is `w` (bits B, Z, S). Without an instance one is added. -/
def State.placeBtx (s : State) (w : Nat) : State :=
  let u := s.cfg.uarts.headD ⟨8, 217, 0, .input⟩
  let b := s.btx.headD (Btx.reset u)
  let b := { b with
    bc := Word.ofNat u.bcw (if w.testBit 2 then 1 else 0), dc := Word.ofNat u.dcw (if w.testBit 1 then 0 else 1) }
  let s : State := { s with
    cfg := { s.cfg with uarts := { u with send := .input } :: s.cfg.uarts.tail }
    btx := b :: s.btx.tail
    inp := { s.inp with send := s.inp.send.headD false :: s.inp.send.tail } }
  s.placeEdge .sys [.send 0 (if w.testBit 0 then 1 else 0)]

/-- LRX-SEL is `w` (bits C, V). -/
def State.placeLrx (s : State) (w : Nat) : State :=
  let s : State := { s with lrx := { s.lrx with state := if w.testBit 1 then .capture else .idle } }
  s.placeEdge .rx [.rxCtl (if w.testBit 0 then 1 else 0)]

/-- LTX-SEL is `w` (bits T, E, S). -/
def State.placeLtx (s : State) (w : Nat) : State :=
  let s : State := { s with
    cfg := { s.cfg with trigger := .wave ⟨[], [w.testBit 0]⟩ }
    ltx := { s.ltx with
      state := if w.testBit 2 then .data else .idle
      raddr := Word.ofNat s.cfg.aw 0
      len := Word.ofNat s.cfg.aw (if w.testBit 1 then 0 else 2) }
    x3 := settled s.cfg s.x3 (w.testBit 0) }
  s.placeEdge .rx []

/-- PDM-SEL is `w` (bits Q1, Q0, S, Z, E). -/
def State.placePdm (s : State) (w : Nat) : State :=
  let s : State := { s with
    lrx := { s.lrx with frameAvail := w.testBit 2 }
    pdm := { s.pdm with
      state := if w.testBit 4 then .wait else if w.testBit 3 then .data else .idle
      dc := Word.ofNat s.cfg.pdw (if w.testBit 1 then 0 else 1)
      raddr := Word.ofNat s.cfg.aw 0
      len := Word.ofNat s.cfg.aw (if w.testBit 0 then 0 else 1) }
    x1 := settled s.cfg s.x1 (w.testBit 2) }
  s.placeEdge .sys []

/-- CDC-SEL of a crossing is `w` (bits Y, U): DUAL, and a two-stage synchronizer where Y is 1. -/
def State.placeCross (s : State) (x : CrossingId) (w : Nat) : State :=
  let c : Params := { s.cfg with clocking := .dual, syncStages := if w.testBit 1 then 2 else 0 }
  let s : State := { s with
    cfg := c
    x1 := Crossing.reset c .x1
    x2 := Crossing.reset c .x2
    x3 := Crossing.reset c .x3
    script := if s.cfg.clocking == .dual then s.script else [] }
  let s := s.setCrossing x { s.crossing x with changed := w.testBit 0 }
  s.placeEdge (match x with | .x1 => .sys | .x2 => .sys | .x3 => .rx) []

/-- The selector word at a place is `w` at the next edge. -/
def State.placeWord (s : State) (p : Port) (w : Nat) : State :=
  match p with
  | .btx _ => s.placeBtx w
  | .lrx => s.placeLrx w
  | .pipe => s.placeEdge .rx []
  | .ltx => s.placeLtx w
  | .pdm => s.placePdm w
  | .capWrite => State.placeEdge { s with lrx := { s.lrx with state := if w.testBit 0 then .capture else .idle } } .rx []
  | .bufRead .capbuf => s.placeEdge .sys []
  | .bufRead .repbuf => s.placeEdge .rx []
  | .cross x => s.placeCross x w

/-- The operation a bare table word names, put where the next edge performs it (log 10, log 11). -/
def State.placeTableWord (s : State) (nbits w : Nat) : State :=
  match decodeTableWord nbits w with
  | some i => s.placeWord i.port w
  | none => s

end Sys2Proof.Machine
end

