-- ==== Sys2Proof/Machine/Step.lean ====
section
/-! DEFINITION. One step of the machine: one clock edge. -/

namespace Sys2Proof.Machine

/-- One step is the next edge (R142: each agent advances exactly one step per tick of its own clock). -/
def step (s : State) : Host.Outcome State Fault Refusal := runEdge s

/-- `s` with the operation of a bare table word where the next step performs it (log 10, log 11). -/
def State.withFetchWord (s : State) (nbits w : Nat) : State := s.placeTableWord nbits w

end Sys2Proof.Machine
end

