-- ==== Sys2Proof/Safety.lean ====
section
/-! DEFINITION. What claims rest on: a safe step, the shape of a state (every register as wide as spec/10_state.md says,
the stores in their form), the rules of each block that no operation breaks,
and the count of one domain's cycles in a run. -/

namespace Sys2Proof.Machine

/-- A step that does not fault. The hardware raises nothing (R132); the model's one fault is CDC.RACE's (R134). -/
def State.Safe (s : State) : Prop := ∀ f, step s ≠ .fault f

/-- The widths of one BTX instance (R10, R24). -/
def Btx.Fits (c : UartCfg) (b : Btx) : Prop :=
  b.sr.width = c.n + 2 ∧ b.bc.width = c.bcw ∧ b.dc.width = c.dcw

/-- The widths of a crossing's record, and its SYNC_STAGES stages (R29, R124, R125). -/
def Crossing.Fits (c : Params) (x : CrossingId) (r : Crossing) : Prop :=
  r.prev.width = Params.crossingWidth c x ∧ r.sample.width = Params.crossingWidth c x ∧
    r.chain.length = c.syncStages ∧ ∀ v ∈ r.chain, v.width = Params.crossingWidth c x

/-- A state of a legal configuration (R13) whose registers have the widths of R24 to R29 and whose stores are in the
canonical form, below the depth (R47), REPBUF holding its initial contents (R34, R43, R53). -/
structure State.Shape (s : State) : Prop where
  legal : s.cfg.legal = true
  btx : List.Forall₂ Btx.Fits s.cfg.uarts s.btx
  send : s.inp.send.length = s.cfg.uarts.length
  cnt : s.lrx.cnt.width = s.cfg.aw
  frameLen : s.lrx.frameLen.width = s.cfg.aw
  ltxLen : s.ltx.len.width = s.cfg.aw
  ltxRaddr : s.ltx.raddr.width = s.cfg.aw
  pdmLen : s.pdm.len.width = s.cfg.aw
  pdmRaddr : s.pdm.raddr.width = s.cfg.aw
  pdmDc : s.pdm.dc.width = s.cfg.pdw
  crossing : ∀ x, Crossing.Fits s.cfg x (s.crossing x)
  capbufWf : s.capbuf.wf = true
  capbufWithin : s.capbuf.within s.cfg.d = true
  repbuf : s.repbuf = Mem.load 0 s.cfg.replayInit

/-- BTX between a load and the end of its frame (R54, R75 to R77): `bc` counts the frame bits left, `dc` stays below
`K` while busy, and every bit of `sr` from `bc` up is 1 (the ones shifted in; all of `sr` when idle). -/
def Btx.Framed (c : UartCfg) (b : Btx) : Prop :=
  b.bc.toNat ≤ c.n + 2 ∧ (b.bc.toNat ≠ 0 → b.dc.toNat ≤ c.k - 1) ∧
    ∀ i, b.bc.toNat ≤ i → i < c.n + 2 → b.sr.bit i = true

/-- Every BTX instance is within its frame. -/
def State.LinesFramed (s : State) : Prop := List.Forall₂ Btx.Framed s.cfg.uarts s.btx

/-- LRX (R86 to R89): a frame is reported only in `IDLE`, a length is shown only with it, and `cnt` is 0 in `IDLE`. -/
structure Lrx.Protocol (l : Lrx) : Prop where
  availInIdle : l.frameAvail = true → l.state = .idle
  lenWithAvail : l.frameAvail = false → l.frameLen.toNat = 0
  idleCount : l.state = .idle → l.cnt.toNat = 0

/-- LTX (R98 to R101): in `DATA` the enable is 1 and the read address lies between 1 and the frame's last address. -/
def Ltx.Protocol (l : Ltx) : Prop :=
  l.state = .data → l.en = true ∧ 1 ≤ l.raddr.toNat ∧ l.raddr.toNat < max l.len.toNat 2

/-- PDM (R108, R109): in `WAIT` the divider counts down from `DDIV - 2`. -/
def Pdm.Protocol (c : Params) (p : Pdm) : Prop :=
  p.state = .wait → p.dc.toNat ≤ c.ddiv - 2

/-- The rules of LRX, LTX and PDM together. -/
structure State.Protocol (s : State) : Prop where
  lrx : Lrx.Protocol s.lrx
  ltx : Ltx.Protocol s.ltx
  pdm : Pdm.Protocol s.cfg s.pdm

/-! What a run of `n` steps from a state did in ONE domain, whatever edges of the other came between (R122). Both stop
where the run stops. -/

/-- The validity line and the byte of each rx cycle that the next `n` steps end, in order: one entry for each rx edge
(and each edge of the one clock). -/
def State.rxCycles : Nat → State → List (Bool × Byte)
  | 0, _ => []
  | n + 1, s =>
    match step s with
    | .next t =>
      if s.event.edge = .sys then t.rxCycles n else (s.begin.validity, s.begin.inp.rxData) :: t.rxCycles n
    | .fault _ => []
    | .refused _ => []

/-- The number of sys cycles that the next `n` steps end: of sys edges, and of edges of the one clock. -/
def State.sysEdges : Nat → State → Nat
  | 0, _ => 0
  | n + 1, s =>
    match step s with
    | .next t => if s.event.edge = .rx then t.sysEdges n else t.sysEdges n + 1
    | .fault _ => 0
    | .refused _ => 0

end Sys2Proof.Machine
end

