-- ==== Sys2Proof/Certificates/Slice0/Obligations.lean ====
section
/-! DEFINITION. The statements for the provers, from the numbered rules of spec/. A statement about an operation's
result has as its conclusion that `exec` answers a next state; `Only…Changed` is its frame. -/

open Sys2Proof Sys2Proof.Machine

namespace Sys2Proof.Claims

/-- Every byte of both stores reads as before. -/
def SameStores (s t : State) : Prop := ∀ b a, (t.store b).read a = (s.store b).read a

/-- Nothing but the registers of BTX instance `u` has changed (R22). -/
def OnlyBtxChanged (s t : State) (u : Nat) : Prop :=
  t = { s with btx := t.btx } ∧ t.btx.length = s.btx.length ∧ (∀ v, v ≠ u → t.btx[v]? = s.btx[v]?) ∧ SameStores s t

/-- Nothing but the registers of LRX has changed. -/
def OnlyLrxChanged (s t : State) : Prop := t = { s with lrx := t.lrx } ∧ SameStores s t

/-- Nothing but the registers of LTX has changed. -/
def OnlyLtxChanged (s t : State) : Prop := t = { s with ltx := t.ltx } ∧ SameStores s t

/-- Nothing but the registers of PDM has changed. -/
def OnlyPdmChanged (s t : State) : Prop := t = { s with pdm := t.pdm } ∧ SameStores s t

/-- Nothing but the record of one crossing has changed. -/
def OnlyCrossingChanged (s t : State) (x : CrossingId) : Prop :=
  t = { s with x1 := t.x1, x2 := t.x2, x3 := t.x3 } ∧ (∀ y, y ≠ x → t.crossing y = s.crossing y) ∧ SameStores s t

/-- CAPBUF has been written at the address MEM.WRITE writes, `waddr`, with the byte it writes, `wdatap` (R39, R84), and
every other byte of both stores reads as before. -/
def WroteCapbuf (s t : State) : Prop :=
  t.capbuf.read s.waddr = s.wdatap ∧ (∀ a, a ≠ s.waddr → t.capbuf.read a = s.capbuf.read a) ∧
    ∀ a, t.repbuf.read a = s.repbuf.read a

/-- The content of frame bit `j` of the serial frame that carries `data` of `n` bits, as the table of R54 gives it. -/
def serialBit (n data j : Nat) : Bool :=
  if j = 0 then false else if j = n + 1 then true else data.testBit (j - 1)

/-- Each bit of `v` is that bit of `old` or that bit of `new` (R17: `draw({old bit, new bit})`). -/
def BitwiseBetween {w : Nat} (old new v : BitVec w) : Prop :=
  ∀ i < w, v.getLsbD i = old.getLsbD i ∨ v.getLsbD i = new.getLsbD i

/-- The blocks a sys edge steps are those of `exec` applied to ONE state `s`: `t` takes from each answer the registers
that block owns (R20, R22). -/
def SysOwned (s t : State) : Prop :=
  (∃ i a, decode .pdm (s.selector .pdm) = .ok i ∧ exec i s = .next a ∧ t.pdm = a.pdm) ∧
  (∃ a, exec (.memRead .capbuf) s = .next a ∧ t.capRdata = a.capRdata) ∧
  t.btx.length = s.btx.length ∧
  ∀ u < s.btx.length, ∃ i a, decode (.btx u) (s.selector (.btx u)) = .ok i ∧ exec i s = .next a ∧ t.btx[u]? = a.btx[u]?

/-- The same of the blocks an rx edge steps. -/
def RxOwned (s t : State) : Prop :=
  (∃ i a, decode .capWrite (s.selector .capWrite) = .ok i ∧ exec i s = .next a ∧ t.capbuf = a.capbuf ∧
    t.recent = a.recent) ∧
  (∃ i a, decode .lrx (s.selector .lrx) = .ok i ∧ exec i s = .next a ∧ t.lrx = { a.lrx with wdata := t.lrx.wdata }) ∧
  (∃ a, exec .lrxPipe s = .next a ∧ t.lrx.wdata = a.lrx.wdata) ∧
  (∃ i a, decode .ltx (s.selector .ltx) = .ok i ∧ exec i s = .next a ∧ t.ltx = a.ltx) ∧
  (∃ a, exec (.memRead .repbuf) s = .next a ∧ t.repRdata = a.repRdata)

end Sys2Proof.Claims

open Sys2Proof.Claims

/-! ### Encodings -/

/-- Selector words written out from the patterns of R61 to R66. -/
def Obligations.WrittenWordsDecode : Prop :=
  decode (.btx 0) 0b001 = .ok (.btxLoad 0) ∧ decode (.btx 2) 0b111 = .ok (.btxShift 2) ∧
  decode .lrx 0b10 = .ok .lrxEnd ∧ decode .ltx 0b110 = .ok .ltxLast ∧ decode .pdm 0b10010 = .ok .pdmNext ∧
  decode .capWrite 0b1 = .ok .memWrite ∧ decode (.bufRead .repbuf) 0 = .ok (.memRead .repbuf) ∧
  decode (.cross .x2) 0b11 = .ok (.syncRace .x2) ∧ decode .pdm 0b11000 = .error .noRow ∧
  decode .lrx 0b100 = .error .tooWide

/-- 30_encoding.md §2: the decoder picks an operation exactly where the operation's row matches, at every place and for
every number given as a selector word; so no two rows of a place overlap and no word is read as another's. -/
def Obligations.DecodeIsExactlyTheTable : Prop :=
  ∀ (p : Port) (sel : Nat) (i : Instr),
    decode p sel = .ok i ↔ i.port = p ∧ sel < 2 ^ p.width ∧ sel &&& i.mask = encode i

/-- Decode and encode agree for every operation, whatever the bits its row leaves free. -/
def Obligations.DecodeOfEncodeIsTheOperation : Prop :=
  ∀ (i : Instr) (free : Nat), free < 2 ^ i.port.width → free &&& i.mask = 0 →
    decode i.port (encode i ||| free) = .ok i

/-- R60 (the spec's decision D18): in every state every block's selector word picks an operation of that block, and one
that the configuration has (WellFormed) where the block or the crossing exists. -/
def Obligations.EverySelectorPicksAnOperation : Prop :=
  ∀ (s : State) (p : Port), ∃ i, decode p (s.selector p) = .ok i ∧ i.port = p ∧
    ((∀ u, p = .btx u → u < s.cfg.uarts.length) → (∀ x, p = .cross x → s.cfg.clocking = .dual) → i.wf s.cfg = true)

/-- R61. -/
def Obligations.BtxSelectorPicks : Prop :=
  ∀ (s : State) (u : Nat) (b : Btx), s.btx[u]? = some b →
    decode (.btx u) (s.selector (.btx u)) = .ok (
      if b.bc.toNat = 0 then (if s.sendLevel u then .btxLoad u else .btxIdle u)
      else if b.dc.toNat = 0 then .btxShift u else .btxHold u)

/-- R62. -/
def Obligations.LrxSelectorPicks : Prop :=
  ∀ s : State, decode .lrx (s.selector .lrx) = .ok (
    match s.lrx.state, s.inp.rxCtl.getLsbD 0 with
    | .idle, false => .lrxIdle
    | .idle, true => .lrxStart
    | .capture, false => .lrxEnd
    | .capture, true => .lrxCapture)

/-- R63, with the last-cycle condition of R101 (the spec's decision D14) written in numbers: `len - 1` in the width of
`len`. -/
def Obligations.LtxSelectorPicks : Prop :=
  ∀ s : State, 1 ≤ s.ltx.len.width → decode .ltx (s.selector .ltx) = .ok (
    match s.ltx.state with
    | .idle => if s.ltxStart then .ltxStart else .ltxIdle
    | .data =>
      if s.ltx.len.toNat ≤ 1 ∨ s.ltx.raddr.toNat = s.ltx.len.toNat - 1 then .ltxLast else .ltxStep)

/-- R64. -/
def Obligations.PdmSelectorPicks : Prop :=
  ∀ s : State, decode .pdm (s.selector .pdm) = .ok (
    match s.pdm.state with
    | .idle => if s.pdmStart then .pdmStart else .pdmIdle
    | .data => .pdmFetch
    | .wait =>
      if s.pdm.dc.toNat ≠ 0 then .pdmCount
      else if s.pdm.raddr.toNat = s.pdm.len.toNat then .pdmDone else .pdmNext)

/-- R65, and R66 (the spec's decision D25). -/
def Obligations.PortAndCrossingSelectorsPick : Prop :=
  ∀ s : State,
    decode .capWrite (s.selector .capWrite) = .ok (if s.lrx.state = .capture then .memWrite else .memNowrite) ∧
    (∀ b, decode (.bufRead b) (s.selector (.bufRead b)) = .ok (.memRead b)) ∧
    ∀ x, decode (.cross x) (s.selector (.cross x)) = .ok (
      if s.cfg.syncStages ≥ 2 then (if (s.crossing x).changed then .syncRace x else .syncShift x)
      else if (s.crossing x).changed then .cdcRace x else .cdcDirect x)

/-! ### Byte transmitter -/

/-- R75: the register holds the frame of R54 bit by bit, `bc = N + 2`, `dc = K - 1`. -/
def Obligations.BtxLoadPacksTheFrame : Prop :=
  ∀ (s : State) (u : Nat) (c : UartCfg) (b : Btx), s.cfg.uarts[u]? = some c → s.btx[u]? = some b →
    ∃ t b', exec (.btxLoad u) s = .next t ∧ t.btx[u]? = some b' ∧ b'.sr.width = c.n + 2 ∧
      (∀ j ≤ c.n + 1, b'.sr.bit j = serialBit c.n c.byte j) ∧ b'.bc.toNat = c.n + 2 ∧ b'.dc.toNat = c.k - 1 ∧
      OnlyBtxChanged s t u

/-- R77, for a busy instance whose registers have their widths. -/
def Obligations.BtxShiftMovesToTheNextBit : Prop :=
  ∀ (s : State) (u : Nat) (c : UartCfg) (b : Btx), s.cfg.uarts[u]? = some c → s.btx[u]? = some b →
    Btx.Fits c b → b.bc.toNat ≠ 0 →
    ∃ t b', exec (.btxShift u) s = .next t ∧ t.btx[u]? = some b' ∧ b'.sr.width = c.n + 2 ∧
      (∀ i < c.n + 1, b'.sr.bit i = b.sr.bit (i + 1)) ∧ b'.sr.bit (c.n + 1) = true ∧
      b'.bc.toNat = b.bc.toNat - 1 ∧ b'.dc.toNat = c.k - 1 ∧ OnlyBtxChanged s t u

/-- R74: nothing changes. R76: `dc` counts down, `sr` and `bc` hold. -/
def Obligations.BtxIdleAndHoldKeepTheLine : Prop :=
  ∀ (s : State) (u : Nat) (c : UartCfg) (b : Btx), s.cfg.uarts[u]? = some c → s.btx[u]? = some b →
    exec (.btxIdle u) s = .next s ∧
    (b.dc.toNat ≠ 0 → ∃ t b', exec (.btxHold u) s = .next t ∧ t.btx[u]? = some b' ∧ b'.sr = b.sr ∧ b'.bc = b.bc ∧
      b'.dc.toNat = b.dc.toNat - 1 ∧ OnlyBtxChanged s t u)

/-- The model's choice (log 14): an operation of a BTX instance the core does not have, or of a synchronizer on a
crossing without a chain, is refused. -/
def Obligations.AbsentUnitsAreRefused : Prop :=
  (∀ (s : State) (u : Nat), s.cfg.uarts[u]? = none →
    exec (.btxIdle u) s = .refused .noSuchUnit ∧ exec (.btxLoad u) s = .refused .noSuchUnit ∧
    exec (.btxHold u) s = .refused .noSuchUnit ∧ exec (.btxShift u) s = .refused .noSuchUnit) ∧
  ∀ (s : State) (x : CrossingId), (s.crossing x).chain = [] →
    exec (.syncShift x) s = .refused .noSuchUnit ∧ exec (.syncRace x) s = .refused .noSuchUnit

/-- R78: the next registers of a busy instance do not depend on any input. -/
def Obligations.BusyBtxIgnoresSend : Prop :=
  ∀ (s t t' : State) (u : Nat) (b : Btx) (other : Inputs), s.btx[u]? = some b → b.bc.toNat ≠ 0 →
    perform (.btx u) s = .next t → perform (.btx u) { s with inp := other } = .next t' → t'.btx[u]? = t.btx[u]?

/-! ### Link receiver -/

/-- R86 and R87. -/
def Obligations.LrxIdleAndStart : Prop :=
  ∀ s : State, s.cfg.legal = true →
    (∃ t, exec .lrxIdle s = .next t ∧ t.lrx.frameAvail = false ∧ t.lrx.frameLen.toNat = 0 ∧ t.lrx.cnt.toNat = 0 ∧
      t.lrx.state = s.lrx.state ∧ t.lrx.wdata = s.lrx.wdata ∧ OnlyLrxChanged s t) ∧
    ∃ t, exec .lrxStart s = .next t ∧ t.lrx.frameAvail = false ∧ t.lrx.frameLen.toNat = 0 ∧ t.lrx.cnt.toNat = 1 ∧
      t.lrx.state = .capture ∧ t.lrx.wdata = s.lrx.wdata ∧ OnlyLrxChanged s t

/-- R88, the counter modulo 2^AW (R92's wrap included). The write also leaves X4's record (`recent`). -/
def Obligations.LrxCaptureStoresAndCounts : Prop :=
  ∀ s : State, s.lrx.cnt.width = s.cfg.aw →
    ∃ t, exec .lrxCapture s = .next t ∧ WroteCapbuf s t ∧ t.lrx.cnt.toNat = (s.lrx.cnt.toNat + 1) % 2 ^ s.cfg.aw ∧
      t.lrx = { s.lrx with cnt := t.lrx.cnt } ∧
      t = { s with lrx := t.lrx, capbuf := t.capbuf, recent := t.recent }

/-- R89: the last byte is written, the counter becomes the length, the pulse is set, the counter is reset. -/
def Obligations.LrxEndReportsTheFrame : Prop :=
  ∀ s : State,
    ∃ t, exec .lrxEnd s = .next t ∧ WroteCapbuf s t ∧ t.lrx.frameLen = s.lrx.cnt ∧ t.lrx.frameAvail = true ∧
      t.lrx.cnt.toNat = 0 ∧ t.lrx.state = .idle ∧ t.lrx.wdata = s.lrx.wdata ∧
      t = { s with lrx := t.lrx, capbuf := t.capbuf, recent := t.recent }

/-- R85. -/
def Obligations.LrxPipeTakesTheByte : Prop :=
  ∀ s : State, ∃ t, exec .lrxPipe s = .next t ∧ t.lrx.wdata = s.inp.rxData ∧
    t.lrx = { s.lrx with wdata := t.lrx.wdata } ∧ OnlyLrxChanged s t

/-- R93: whatever `rx_ctl[1]` is, an rx edge's LRX operation gives the same. -/
def Obligations.LrxIgnoresTheSecondControlBit : Prop :=
  ∀ (s t t' : State) (ctl : BitVec 2), ctl.getLsbD 0 = s.inp.rxCtl.getLsbD 0 →
    perform .lrx s = .next t → perform .lrx { s with inp := { s.inp with rxCtl := ctl } } = .next t' →
    t'.lrx = t.lrx ∧ t'.capbuf = t.capbuf

/-! ### Link transmitter -/

/-- R97 and R98. -/
def Obligations.LtxIdleAndStart : Prop :=
  ∀ s : State, s.cfg.legal = true →
    (∃ t, exec .ltxIdle s = .next t ∧ t.ltx.len.toNat = s.cfg.replayLen ∧ t.ltx.en = false ∧ t.ltx.raddr.toNat = 0 ∧
      t.ltx.state = s.ltx.state ∧ OnlyLtxChanged s t) ∧
    ∃ t, exec .ltxStart s = .next t ∧ t.ltx.len.toNat = s.cfg.replayLen ∧ t.ltx.en = true ∧ t.ltx.raddr.toNat = 1 ∧
      t.ltx.state = .data ∧ OnlyLtxChanged s t

/-- R99 and R100: the address counts modulo 2^AW, LTX.LAST returns to `IDLE`, `en` and `ltx_len` hold in both. -/
def Obligations.LtxStepAndLastCount : Prop :=
  ∀ s : State, s.ltx.raddr.width = s.cfg.aw →
    (∃ t, exec .ltxStep s = .next t ∧ t.ltx.raddr.toNat = (s.ltx.raddr.toNat + 1) % 2 ^ s.cfg.aw ∧
      t.ltx = { s.ltx with raddr := t.ltx.raddr } ∧ OnlyLtxChanged s t) ∧
    ∃ t, exec .ltxLast s = .next t ∧ t.ltx.raddr.toNat = (s.ltx.raddr.toNat + 1) % 2 ^ s.cfg.aw ∧
      t.ltx = { s.ltx with raddr := t.ltx.raddr, state := .idle } ∧ OnlyLtxChanged s t

/-- R103 and R116: outside `IDLE` the next registers of LTX do not depend on `start`, nor PDM's on `start` and
`length`. -/
def Obligations.BusyFramersIgnoreStart : Prop :=
  ∀ (s t t' : State) (other₁ other₂ other₃ : Crossing),
    (s.ltx.state = .data → perform .ltx s = .next t → perform .ltx { s with x3 := other₃ } = .next t' →
      t'.ltx = t.ltx) ∧
    (s.pdm.state ≠ .idle → perform .pdm s = .next t →
      perform .pdm { s with x1 := other₁, x2 := other₂ } = .next t' → t'.pdm = t.pdm)

/-! ### Parallel dumper -/

/-- R106 and R107: the length latched is PDM's `length` input, X2's sample (R117). -/
def Obligations.PdmIdleAndStart : Prop :=
  ∀ s : State,
    (∃ t, exec .pdmIdle s = .next t ∧ t.pdm.len = s.x2.sample ∧ t.pdm.raddr.toNat = 0 ∧ t.pdm.word = 0#8 ∧
      t.pdm = { s.pdm with len := t.pdm.len, raddr := t.pdm.raddr, word := t.pdm.word } ∧ OnlyPdmChanged s t) ∧
    ∃ t, exec .pdmStart s = .next t ∧ t.pdm.len = s.x2.sample ∧ t.pdm.raddr.toNat = 0 ∧ t.pdm.word = 0#8 ∧
      t.pdm = { s.pdm with len := t.pdm.len, raddr := t.pdm.raddr, word := t.pdm.word, state := .data } ∧
      OnlyPdmChanged s t

/-- R108. -/
def Obligations.PdmFetchLatchesTheWord : Prop :=
  ∀ s : State, s.cfg.legal = true → s.pdm.raddr.width = s.cfg.aw →
    ∃ t, exec .pdmFetch s = .next t ∧ t.pdm.dc.toNat = s.cfg.ddiv - 2 ∧
      t.pdm.raddr.toNat = (s.pdm.raddr.toNat + 1) % 2 ^ s.cfg.aw ∧ t.pdm.word = s.capRdata ∧ t.pdm.strobe = false ∧
      t.pdm.state = .wait ∧ t.pdm.len = s.pdm.len ∧ OnlyPdmChanged s t

/-- R109, R110 and R111: the divider counts down (from 0 to 2^PDW - 1), the strobe rises, and PDM stays, fetches the
next word or goes idle. -/
def Obligations.PdmCountNextAndDone : Prop :=
  ∀ s : State, 1 ≤ s.cfg.pdw → s.pdm.dc.width = s.cfg.pdw →
    (∃ t, exec .pdmCount s = .next t ∧ t.pdm.strobe = true ∧
      t.pdm.dc.toNat = (if s.pdm.dc.toNat = 0 then 2 ^ s.cfg.pdw - 1 else s.pdm.dc.toNat - 1) ∧
      t.pdm = { s.pdm with dc := t.pdm.dc, strobe := t.pdm.strobe } ∧ OnlyPdmChanged s t) ∧
    (∃ t, exec .pdmNext s = .next t ∧ t.pdm.strobe = true ∧
      t.pdm.dc.toNat = (if s.pdm.dc.toNat = 0 then 2 ^ s.cfg.pdw - 1 else s.pdm.dc.toNat - 1) ∧
      t.pdm = { s.pdm with dc := t.pdm.dc, strobe := t.pdm.strobe, state := .data } ∧ OnlyPdmChanged s t) ∧
    ∃ t, exec .pdmDone s = .next t ∧ t.pdm.strobe = true ∧
      t.pdm.dc.toNat = (if s.pdm.dc.toNat = 0 then 2 ^ s.cfg.pdw - 1 else s.pdm.dc.toNat - 1) ∧
      t.pdm = { s.pdm with dc := t.pdm.dc, strobe := t.pdm.strobe, state := .idle } ∧ OnlyPdmChanged s t

/-! ### Buffer memory -/

/-- R39: MEM.WRITE changes exactly one word, MEM.NOWRITE nothing. Under DUAL the written address joins X4's record with
the byte it held: that clause follows the spec's decision D11 as log 18 (DEDUCED) holds it. -/
def Obligations.WritePortOperations : Prop :=
  ∀ s : State,
    exec .memNowrite s = .next s ∧
    ∃ t, exec .memWrite s = .next t ∧ WroteCapbuf s t ∧ t = { s with capbuf := t.capbuf, recent := t.recent } ∧
      (s.cfg.clocking = .dual → ∀ a, recentByte t.recent a =
        if a = s.waddr then some (s.capbuf.read s.waddr) else recentByte s.recent a)

/-- R40 (that every edge reads is the spec's decision D9), where no write of that address is near: REPBUF always;
CAPBUF when its own domain does not write the address at this edge (SINGLE) and the other has not written it since the
last sys edge (DUAL). -/
def Obligations.ReadPortTakesTheAddressedWord : Prop :=
  ∀ s : State,
    (∃ t, exec (.memRead .repbuf) s = .next t ∧ t.repRdata = s.repbuf.read s.ltx.raddr.toNat ∧
      t = { s with repRdata := t.repRdata } ∧ SameStores s t) ∧
    ((s.cfg.clocking = .single ∧ (s.lrx.state = .capture → s.lrx.cnt.toNat ≠ s.pdm.raddr.toNat)) ∨
      (s.cfg.clocking = .dual ∧ recentByte s.recent s.pdm.raddr.toNat = none) →
      ∃ t, exec (.memRead .capbuf) s = .next t ∧ t.capRdata = s.capbuf.read s.pdm.raddr.toNat ∧
        t = { s with capRdata := t.capRdata } ∧ SameStores s t)

/-- R41 (the spec's decision D10): a read and a write of one CAPBUF address at one edge of the one clock. -/
def Obligations.ReadDuringWriteFollowsRdw : Prop :=
  ∀ s : State, s.cfg.clocking = .single → s.lrx.state = .capture → s.pdm.raddr.toNat = s.lrx.cnt.toNat →
    ∃ t, exec (.memRead .capbuf) s = .next t ∧ t = { s with capRdata := t.capRdata } ∧ SameStores s t ∧
      (s.cfg.rdw = .old → t.capRdata = s.capbuf.read s.lrx.cnt.toNat) ∧
      (s.cfg.rdw = .new → t.capRdata = s.lrx.wdata) ∧
      (s.cfg.rdw = .any → BitwiseBetween (s.capbuf.read s.lrx.cnt.toNat) s.lrx.wdata t.capRdata)

/-- R42 (the spec's decision D11): a sys read of an address rx wrote since the previous sys edge, `before` being its
byte before the most recent such write. Any mix can be drawn: for each `v` between the two there is a draw of the edge
that reads `v`. -/
def Obligations.ReadAcrossDomainsIsDrawn : Prop :=
  ∀ (s : State) (before : Byte), s.cfg.clocking = .dual → recentByte s.recent s.pdm.raddr.toNat = some before →
    (∃ t, exec (.memRead .capbuf) s = .next t ∧ t = { s with capRdata := t.capRdata } ∧ SameStores s t ∧
      BitwiseBetween before (s.capbuf.read s.pdm.raddr.toNat) t.capRdata) ∧
    ∀ v, BitwiseBetween before (s.capbuf.read s.pdm.raddr.toNat) v →
      ∃ d t, exec (.memRead .capbuf) { s with draw := some d } = .next t ∧ t.capRdata = v

/-! ### Crossings -/

/-- R126. That `U` is cleared is R125, the spec's decision D25. -/
def Obligations.DirectSampleIsTheDriver : Prop :=
  ∀ (s : State) (x : CrossingId), ∃ t, exec (.cdcDirect x) s = .next t ∧ (t.crossing x).sample = s.cur x ∧
    (t.crossing x).changed = false ∧ (t.crossing x).prev = (s.crossing x).prev ∧
    (t.crossing x).chain = (s.crossing x).chain ∧ OnlyCrossingChanged s t x

/-- CDC.RACE, the spec's decision D25: a crossing that is read while it changes faults, or yields each bit old or new,
and `U` is cleared; where no destination register reads it, only `U` is cleared. -/
def Obligations.RaceFaultsOrDraws : Prop :=
  ∀ (s : State) (x : CrossingId),
    (s.reads x = true → exec (.cdcRace x) s = .fault (.cdcMetastable x) ∨
      ∃ t, exec (.cdcRace x) s = .next t ∧ (t.crossing x).sample.width = (s.cur x).width ∧
        (∀ i < (s.cur x).width, (t.crossing x).sample.bit i = (s.crossing x).prev.bit i ∨
          (t.crossing x).sample.bit i = (s.cur x).bit i) ∧
        (t.crossing x).changed = false ∧ (t.crossing x).prev = (s.crossing x).prev ∧
        (t.crossing x).chain = (s.crossing x).chain ∧ OnlyCrossingChanged s t x) ∧
    (s.reads x = false → ∃ t, exec (.cdcRace x) s = .next t ∧
      t.crossing x = { s.crossing x with changed := false } ∧ OnlyCrossingChanged s t x)

/-- CDC.RACE, the spec's decision D25, and log 3: when the edge's draws are named, the draw of the crossing decides:
the fault arm, or the mix of old and new bits its `pick` says. So both arms can be taken, and every mix. -/
def Obligations.NamedDrawDecidesTheRace : Prop :=
  ∀ (s : State) (x : CrossingId) (d : EdgeDraw), s.reads x = true → s.draw = some d →
    ((d.at (.crossing x)).fault = true → exec (.cdcRace x) s = .fault (.cdcMetastable x)) ∧
    ((d.at (.crossing x)).fault = false → ∃ t, exec (.cdcRace x) s = .next t ∧
      (t.crossing x).sample.width = (s.cur x).width ∧
      (∀ i < (s.cur x).width, (t.crossing x).sample.bit i =
        if (d.at (.crossing x)).pick.testBit i then (s.cur x).bit i else (s.crossing x).prev.bit i) ∧
      (t.crossing x).changed = false ∧ OnlyCrossingChanged s t x)

/-- SYNC.SHIFT, the spec's decision D26: the chain moves one stage, and the sample is the last stage before the edge. -/
def Obligations.SyncShiftMovesTheChain : Prop :=
  ∀ (s : State) (x : CrossingId) (first : Word) (rest : List Word), (s.crossing x).chain = first :: rest →
    ∃ t, exec (.syncShift x) s = .next t ∧ (t.crossing x).chain[0]? = some (s.cur x) ∧
      (∀ k, k < rest.length → (t.crossing x).chain[k + 1]? = (s.crossing x).chain[k]?) ∧
      (t.crossing x).chain.length = (s.crossing x).chain.length ∧
      some (t.crossing x).sample = (s.crossing x).chain[rest.length]? ∧ (t.crossing x).changed = false ∧
      (t.crossing x).prev = (s.crossing x).prev ∧ OnlyCrossingChanged s t x

/-- SYNC.RACE, the spec's decision D25: as SYNC.SHIFT with the first stage drawn bit by bit; no fault. -/
def Obligations.SyncRaceDrawsTheFirstStage : Prop :=
  ∀ (s : State) (x : CrossingId) (first : Word) (rest : List Word), (s.crossing x).chain = first :: rest →
    ∃ t v, exec (.syncRace x) s = .next t ∧ (t.crossing x).chain[0]? = some v ∧ v.width = (s.cur x).width ∧
      (∀ i < (s.cur x).width, v.bit i = (s.crossing x).prev.bit i ∨ v.bit i = (s.cur x).bit i) ∧
      (∀ k, k < rest.length → (t.crossing x).chain[k + 1]? = (s.crossing x).chain[k]?) ∧
      (t.crossing x).chain.length = (s.crossing x).chain.length ∧
      some (t.crossing x).sample = (s.crossing x).chain[rest.length]? ∧ (t.crossing x).changed = false ∧
      (t.crossing x).prev = (s.crossing x).prev ∧ OnlyCrossingChanged s t x

/-- The books of the crossings, the spec's decision D25: at a source edge that changes the driver `prev` takes the value
before and `U` is set; a driver that does not change leaves the record alone; a destination edge leaves `U` clear. -/
def Obligations.SourceEdgesKeepTheBooks : Prop :=
  ∀ s t : State, s.cfg.clocking = .dual → step s = .next t →
    (s.event.edge = .rx → ∀ x, x ≠ .x3 →
      (t.cur x ≠ s.cur x → (t.crossing x).prev = s.cur x ∧ (t.crossing x).changed = true) ∧
      (t.cur x = s.cur x → t.crossing x = s.crossing x)) ∧
    (s.event.edge = .rx → t.x3.changed = false) ∧
    (s.event.edge = .sys →
      (t.cur .x3 ≠ s.cur .x3 → t.x3.prev = s.cur .x3 ∧ t.x3.changed = true) ∧
      (t.cur .x3 = s.cur .x3 → t.x3 = s.x3) ∧ t.x1.changed = false ∧ t.x2.changed = false)

/-! ### Steps -/

/-- A sys edge runs, from one state, what the selectors decode to: first X1 and X2 (into `s₂`), then the blocks of sys
from `s₂`, whose answers are merged by ownership (log 15, DEDUCED); around them the step takes the event off the stimulus
and counts the cycle and the edge (log 5, DESIGN CHOICE). -/
def Obligations.SysStepRunsTheDecodedOperations : Prop :=
  ∀ s t : State, s.event.edge = .sys → step s = .next t →
    ∃ i₁ i₂ s₁ s₂, decode (.cross .x1) (s.begin.selector (.cross .x1)) = .ok i₁ ∧ exec i₁ s.begin = .next s₁ ∧
      decode (.cross .x2) (s₁.selector (.cross .x2)) = .ok i₂ ∧ exec i₂ s₁ = .next s₂ ∧
      SysOwned s₂ t ∧ t.x1 = s₂.x1 ∧ t.x2 = s₂.x2 ∧ t.sysCycle = s.sysCycle + 1 ∧ t.recent = [] ∧
      t.inp = s.inp.applyAll s.event.drive ∧ t.script = s.script.tail ∧ t.edges = s.edges + 1

/-- The same of an rx edge, X3 first (into `s₁`); log 5 and log 15 as there. -/
def Obligations.RxStepRunsTheDecodedOperations : Prop :=
  ∀ s t : State, s.event.edge = .rx → step s = .next t →
    ∃ i₃ s₁, decode (.cross .x3) (s.begin.selector (.cross .x3)) = .ok i₃ ∧ exec i₃ s.begin = .next s₁ ∧
      RxOwned s₁ t ∧ t.x3 = s₁.x3 ∧ t.inp = s.inp.applyAll s.event.drive ∧ t.script = s.script.tail ∧
      t.edges = s.edges + 1

/-- The same of an edge of the one clock: the crossings are wires, and every block steps from one state (R123); log 5 and
log 15 as there. -/
def Obligations.ClkStepRunsTheDecodedOperations : Prop :=
  ∀ s t : State, s.event.edge = .clk → step s = .next t →
    ∃ s₁, s₁ = { s.begin with x1 := s₁.x1, x2 := s₁.x2, x3 := s₁.x3 } ∧
      (∀ x, (s₁.crossing x).sample = s.begin.cur x) ∧ SysOwned s₁ t ∧ RxOwned s₁ t ∧
      t.sysCycle = s.sysCycle + 1 ∧ t.inp = s.inp.applyAll s.event.drive ∧ t.script = s.script.tail ∧
      t.edges = s.edges + 1

/-- R13 and R134: a configuration with a parameter outside its legal values is refused, those of R9 to R12 written in
numbers; and so is a stimulus that drives a value wider than its input. The other ways a stimulus can be illegal are the
model's choice (log 16). -/
def Obligations.IllegalRunsAreRefused : Prop :=
  ∀ s : State, (s.cfg.legal = false → step s = .refused .paramIllegal) ∧
    ((∃ c ∈ s.cfg.uarts, c.k = 0 ∨ c.n = 0 ∨ 2 ^ c.n ≤ c.byte) ∨ s.cfg.ddiv < 2 ∨ s.cfg.aw = 0 ∨
      s.cfg.d ≠ 2 ^ s.cfg.aw ∨ s.cfg.w ≠ 8 ∨ 2 ^ s.cfg.pdw ≤ s.cfg.ddiv - 2 ∨ s.cfg.pdw = 0 ∨
      s.cfg.syncStages = 1 ∨ s.cfg.links ≠ 1 ∨ s.cfg.err = true ∨ s.cfg.d < s.cfg.replayInit.length ∨
      s.cfg.d ≤ s.cfg.replayLen → step s = .refused .paramIllegal) ∧
    (s.cfg.legal = true → s.script.all (Event.legal s.cfg) = false → step s = .refused .scriptIllegal) ∧
    (s.cfg.legal = true → ∀ e ∈ s.script, ∀ v,
      (.rxData v ∈ e.drive ∧ 256 ≤ v) ∨ (.rxCtl v ∈ e.drive ∧ 4 ≤ v) ∨ (∃ u, .send u v ∈ e.drive ∧ 2 ≤ v) →
      step s = .refused .scriptIllegal)

/-- 60_exceptions.md §1: a fault comes only from an unsynchronized crossing that changed and is read. -/
def Obligations.OnlyARaceFaults : Prop :=
  ∀ (s : State) (f : Fault), step s = .fault f →
    ∃ x, f = .cdcMetastable x ∧ s.cfg.clocking = .dual ∧ s.cfg.syncStages < 2 ∧ (s.crossing x).changed = true ∧
      s.reads x = true

/-- R123 and R129: on one clock, and with a synchronizer, no step faults. -/
def Obligations.SynchronizedStepsAreSafe : Prop :=
  ∀ s : State, s.cfg.clocking = .single ∨ 2 ≤ s.cfg.syncStages → s.Safe

/-- Every other edge completes: R132's "no operation raises anything", for states of the right shape. -/
def Obligations.StepsCompleteWithoutARace : Prop :=
  ∀ s : State, s.Shape → s.script.all (Event.legal s.cfg) = true →
    (s.cfg.clocking = .single ∨ 2 ≤ s.cfg.syncStages ∨ ∀ x, (s.crossing x).changed = true → s.reads x = false) →
    ∃ t, step s = .next t

/-- R40, R149 (that every edge reads is the spec's decision D9): what an rx or clk edge leaves in `rdata` is the word
at the address of the cycle the edge ends, whatever LTX does; so a restart in the first idle cycle shows the word at
the old address (R150). -/
def Obligations.ReplayReadIsOneCycleLate : Prop :=
  ∀ s t : State, s.event.edge ≠ .sys → step s = .next t →
    t.outputs.txData = s.repbuf.read s.ltx.raddr.toNat

/-- R91: at an edge of LRX that finds it in `IDLE` with the validity line low, it stays in `IDLE` with counter 0,
reports nothing and writes nothing. -/
def Obligations.NoFrameWithoutValidity : Prop :=
  ∀ s t : State, s.event.edge ≠ .sys → s.lrx.state = .idle → s.begin.validity = false → step s = .next t →
    t.lrx.state = .idle ∧ t.lrx.cnt.toNat = 0 ∧ t.outputs.frameAvail = false ∧ t.outputs.frameLen.toNat = 0 ∧
      t.capbuf = s.capbuf

/-! ### Rules of the whole machine -/

/-- R33, R38, R53: no step changes REPBUF or a parameter. -/
def Obligations.PayloadAndParametersNeverChange : Prop :=
  ∀ s t : State, step s = .next t → t.repbuf = s.repbuf ∧ t.cfg = s.cfg

/-- R122 (the spec's decision D24): at a sys edge no rx-domain register changes. -/
def Obligations.SysEdgeKeepsTheRxDomain : Prop :=
  ∀ s t : State, s.event.edge = .sys → step s = .next t →
    t.lrx = s.lrx ∧ t.ltx = s.ltx ∧ t.capbuf = s.capbuf ∧ t.repbuf = s.repbuf ∧ t.repRdata = s.repRdata ∧
      t.x3.chain = s.x3.chain

/-- R122, the other way round. -/
def Obligations.RxEdgeKeepsTheSysDomain : Prop :=
  ∀ s t : State, s.event.edge = .rx → step s = .next t →
    t.btx = s.btx ∧ t.pdm = s.pdm ∧ t.capRdata = s.capRdata ∧ t.sysCycle = s.sysCycle ∧ t.x1.chain = s.x1.chain ∧
      t.x2.chain = s.x2.chain

/-- R135, which the spec derives from R122: while no rx edge occurs, however long and whatever sys edges come, the rx
domain keeps its state. -/
def Obligations.StoppedRxClockFreezesTheRxDomain : Prop :=
  ∀ (n : Nat) (s t : State), Host.Core.run core n s = .next t → s.rxCycles n = [] →
    t.lrx = s.lrx ∧ t.ltx = s.ltx ∧ t.capbuf = s.capbuf ∧ t.repbuf = s.repbuf ∧ t.repRdata = s.repRdata ∧
      t.x3.chain = s.x3.chain

/-- Every step keeps the shape: the widths, the canonical form of the stores, REPBUF's contents, the crossings'
chains. -/
def Obligations.ShapeIsKept : Prop :=
  ∀ s t : State, s.Shape → step s = .next t → t.Shape

/-- Every step keeps BTX within its frame. -/
def Obligations.LinesStayFramed : Prop :=
  ∀ s t : State, s.Shape → s.LinesFramed → step s = .next t → t.LinesFramed

/-- Every step keeps the rules of LRX, LTX and PDM. -/
def Obligations.ProtocolIsKept : Prop :=
  ∀ s t : State, s.Shape → s.Protocol → step s = .next t → t.Protocol

/-- The reset state of every legal configuration meets the three invariants. -/
def Obligations.ResetMeetsTheInvariants : Prop :=
  ∀ c : Params, c.legal = true →
    (State.resetWith c).Shape ∧ (State.resetWith c).LinesFramed ∧ (State.resetWith c).Protocol

/-- R74's corner case: an idle instance within its frame drives 1, and `sr` is all ones. -/
def Obligations.IdleLineIsHigh : Prop :=
  ∀ (s : State) (u : Nat) (c : UartCfg) (b : Btx), s.Shape → s.LinesFramed → s.cfg.uarts[u]? = some c →
    s.btx[u]? = some b → b.bc.toNat = 0 → b.serialOut = true ∧ b.sr = Word.ones (c.n + 2)

/-- R145, R146: the states the source gives, and the outputs of cycle 0, for every legal configuration. The zero reset
values are the spec's decision D7. -/
def Obligations.ResetOutputs : Prop :=
  ∀ c : Params, c.legal = true →
    (∀ l ∈ (State.resetWith c).outputs.serialOut, l = true) ∧
    (State.resetWith c).outputs.frameAvail = false ∧ (State.resetWith c).outputs.frameLen.toNat = 0 ∧
    (State.resetWith c).outputs.txCtl = 0#2 ∧ (State.resetWith c).outputs.ready = true ∧
    (State.resetWith c).outputs.txData = 0#8 ∧ (State.resetWith c).outputs.wordOut = 0#8 ∧
    (State.resetWith c).outputs.strobe = false ∧
    (State.resetWith c).lrx.state = .idle ∧ (State.resetWith c).ltx.state = .idle ∧
    (State.resetWith c).pdm.state = .idle

/-- R43, the spec's decision D12 and its general knowledge G1 (the zeros): the stores at reset. REPBUF holds REPLAY_INIT
from address 0 and then zeros, CAPBUF holds CAPTURE_INIT. -/
def Obligations.ResetContents : Prop :=
  ∀ c : Params, c.legal = true →
    (∀ a, (State.resetWith c).repbuf.read a = c.replayInit.getD a 0#8) ∧
    ∀ a, (State.resetWith c).capbuf.read a = Mem.read c.captureInit a

/-- R122, the spec's decision D24: the sys clock is fair. From every state (that is, from every stimulus and whatever
edges follow it, log 4) there is a number of steps in which a run that does not stop ends any number of sys cycles, so an
infinite run ends infinitely many. No such bound holds of rx, which may stop for good. -/
def Obligations.SysClockIsFair : Prop :=
  ∀ (s : State) (m : Nat), ∃ k, ∀ t, Host.Core.run core k s = .next t → m ≤ s.sysEdges k

/-! ### Frames over many edges

Each counts the edges of its own block's domain in a run, and holds for any edges of the other domain between them
(R122), under both clockings and any SYNC_STAGES. -/

/-- R55 and R79, which the spec derives from R75 to R77: a send accepted at the first edge puts frame bit `j` on the line
in cycles `1 + j*K .. (j+1)*K` after it, BTX busy throughout; from the next cycle on, while no further send is accepted,
the instance is idle with the line at 1. -/
def Obligations.SerialFrameTiming : Prop :=
  ∀ (s : State) (u : Nat) (c : UartCfg) (b : Btx) (k : Nat) (t : State), s.Shape → s.event.edge ≠ .rx →
    s.cfg.uarts[u]? = some c → s.btx[u]? = some b → b.bc.toNat = 0 → s.begin.sendLevel u = true →
    Host.Core.run core k s = .next t →
    ∃ b', t.btx[u]? = some b' ∧
      (∀ j r, j ≤ c.n + 1 → r < c.k → s.sysEdges k = 1 + j * c.k + r →
        b'.serialOut = serialBit c.n c.byte j ∧ b'.bc.toNat ≠ 0) ∧
      (1 + (c.n + 2) * c.k ≤ s.sysEdges k →
        (∀ (i : Nat) (v : State), i < k → Host.Core.run core i s = .next v → 1 + (c.n + 2) * c.k ≤ s.sysEdges i →
          v.event.edge ≠ .rx → v.begin.sendLevel u = false) →
        b'.serialOut = true ∧ b'.bc.toNat = 0)

/-- R90, which the spec derives from R84 and R87 to R89: a frame of `m` bytes, `1 ≤ m ≤ D - 1`, from `IDLE`. After `n` of
its rx edges the bytes 1 to `n - 1` are at those addresses and no other address is written; `frame_avail` is 1 with
`frame_len = m` in the cycle after the edge that saw the validity line low, and in no other. -/
def Obligations.CapturedFrameIsStored : Prop :=
  ∀ (s : State) (frame : List Byte) (x : Byte) (rest : List (Bool × Byte)) (k : Nat) (t : State),
    s.Shape → s.lrx.state = .idle → frame ≠ [] → frame.length < s.cfg.d → Host.Core.run core k s = .next t →
    s.rxCycles k <+: frame.map (fun b => (true, b)) ++ (false, x) :: rest →
    ∀ n, (s.rxCycles k).length = n → n ≤ frame.length + 2 →
      (∀ i < min (n - 1) frame.length, some (t.capbuf.read (i + 1)) = frame[i]?) ∧
      (∀ a, a = 0 ∨ min (n - 1) frame.length < a → t.capbuf.read a = s.capbuf.read a) ∧
      (1 ≤ n → t.outputs.frameAvail = decide (n = frame.length + 1)) ∧
      (n = frame.length + 1 → t.outputs.frameLen.toNat = frame.length ∧ t.lrx.state = .idle)

/-- R102, which the spec derives and whose length `L'` for `L` below 2 is its decision D14: after an LTX.START (the first
edge, which takes LTX from `IDLE` to `DATA`) with `ltx_raddr = 0`, the enable is 1 for `L' = max(L, 2)` cycles, in which
`tx_data` is REPBUF from address 0 on; LTX is back in `IDLE` (`ready`) in the last of them, and the enable is 0 from the
next cycle on while no new LTX.START takes it out of `IDLE`. -/
def Obligations.ReplayedFrameIsThePayload : Prop :=
  ∀ (s u : State) (k : Nat) (t : State), s.Shape → s.event.edge ≠ .sys → s.ltx.state = .idle →
    s.ltx.raddr.toNat = 0 → step s = .next u → u.ltx.state = .data → Host.Core.run core k s = .next t →
    ∀ j, (s.rxCycles k).length = j →
      (1 ≤ j → j ≤ max s.cfg.replayLen 2 →
        t.outputs.txCtl = 3#2 ∧ t.outputs.txData = s.repbuf.read (j - 1) ∧
          t.outputs.ready = decide (j = max s.cfg.replayLen 2)) ∧
      (max s.cfg.replayLen 2 < j →
        (∀ (i : Nat) (v : State), i ≤ k → Host.Core.run core i s = .next v → max s.cfg.replayLen 2 ≤ (s.rxCycles i).length →
          v.ltx.state = .idle) →
        t.outputs.txCtl = 0#2)

/-- R112 to R115, which the spec derives: after a PDM.START (the first edge, which takes PDM from `IDLE` to `DATA`) with
`pdm_raddr = 0` and length `L` (the one latched; for `L = 0` all D words), word `i` is what MEM.READ reads at address `i`
at edge `i*DDIV` after it: CAPBUF's byte there, but for a write so near that R41 or R42 applies. It is on `word_out` for
DDIV cycles, the strobe 0 in the first and 1 in the others. PDM is out of `IDLE` for `L*DDIV` cycles. -/
def Obligations.DumpedWordsAndStrobe : Prop :=
  ∀ (s u : State) (k : Nat) (t : State), s.Shape → s.event.edge ≠ .rx → s.pdm.state = .idle →
    s.pdm.raddr.toNat = 0 → step s = .next u → u.pdm.state = .data → Host.Core.run core k s = .next t →
    ∀ len, len = (if u.pdm.len.toNat = 0 then s.cfg.d else u.pdm.len.toNat) →
      (∀ i r, i < len → r < s.cfg.ddiv → s.sysEdges k = 2 + i * s.cfg.ddiv + r →
        t.outputs.strobe = decide (r ≠ 0) ∧
        ∀ (p : Nat) (v : State), Host.Core.run core p s = .next v → s.sysEdges p = i * s.cfg.ddiv → v.event.edge ≠ .rx →
          v.pdm.raddr.toNat = i ∧ t.outputs.wordOut = v.begin.readPort .capbuf ∧
          ((v.cfg.clocking = .single ∧ (v.lrx.state = .capture → v.lrx.cnt.toNat ≠ i)) ∨
            (v.cfg.clocking = .dual ∧ recentByte v.recent i = none) →
            t.outputs.wordOut = v.capbuf.read i)) ∧
      (1 ≤ s.sysEdges k → s.sysEdges k ≤ len * s.cfg.ddiv → t.pdm.state ≠ .idle) ∧
      (s.sysEdges k = 1 + len * s.cfg.ddiv → t.pdm.state = .idle)
end

