-- ==== Sys2Proof/Laws/Memory.lean ====
section
/-! SUPPORT. The laws of the stores: reading after a write, and the canonical form kept by every operation. -/

namespace Sys2Proof.Machine

theorem Mem.read_erase (m : Mem) (a b : Nat) :
    Mem.read (Mem.erase m a) b = if b = a then unlistedByte else Mem.read m b := by
  induction m with
  | nil => simp [Mem.erase, Mem.read]
  | cons c m ih =>
    obtain ⟨k, v⟩ := c
    simp only [Mem.erase, Mem.read, List.filter_cons] at ih ⊢
    by_cases hk : k = a
    · subst hk
      simp only [bne_self_eq_false, Bool.false_eq_true, if_false, ih]
      split <;> simp_all
    · simp only [bne_iff_ne, ne_eq, hk, not_false_eq_true, if_true, Mem.read, ih]
      split <;> simp_all

theorem Mem.read_insert (m : Mem) (a b : Nat) (v : Byte) :
    Mem.read (Mem.insert m a v) b = if b = a then v else Mem.read m b := by
  induction m with
  | nil => simp [Mem.insert, Mem.read]
  | cons c m ih =>
    obtain ⟨k, u⟩ := c
    simp only [Mem.insert]
    split
    · simp [Mem.read]
    · split
      · rename_i h
        subst h
        by_cases hb : b = a <;> simp [Mem.read, hb]
      · simp only [Mem.read, ih]
        split <;> simp_all
        omega

/-- Reading any address after a write: the byte written at that address, and elsewhere what was there. -/
theorem Mem.read_write (m : Mem) (a b : Nat) (v : Byte) :
    Mem.read (Mem.write m a v) b = if b = a then v else Mem.read m b := by
  unfold Mem.write
  split
  · rename_i h; rw [Mem.read_erase, h]
  · rw [Mem.read_insert]

@[simp] theorem Mem.read_write_same (m : Mem) (a : Nat) (v : Byte) : Mem.read (Mem.write m a v) a = v := by
  simp [Mem.read_write]

theorem Mem.read_write_other (m : Mem) {a b : Nat} (v : Byte) (h : b ≠ a) :
    Mem.read (Mem.write m a v) b = Mem.read m b := by
  simp [Mem.read_write, h]

/-- The rising order as a statement about the first cell and the rest. -/
theorem Mem.risesFrom_some {lo : Nat} {m : Mem} :
    Mem.risesFrom (some lo) m = true ↔ (∀ c ∈ m, lo < c.1) ∧ Mem.risesFrom none m = true := by
  induction m generalizing lo with
  | nil => simp [Mem.risesFrom]
  | cons c m ih =>
    obtain ⟨k, v⟩ := c
    simp only [Mem.risesFrom, Bool.and_eq_true, decide_eq_true_eq, List.mem_cons, forall_eq_or_imp]
    constructor
    · rintro ⟨h, hr⟩
      exact ⟨⟨h, fun c hc => Nat.lt_trans h ((ih.1 hr).1 c hc)⟩, hr⟩
    · rintro ⟨⟨h, -⟩, hr⟩
      exact ⟨h, hr⟩

theorem Mem.risesFrom_cons {k : Nat} {v : Byte} {m : Mem} :
    Mem.risesFrom none ((k, v) :: m) = true ↔ (∀ c ∈ m, k < c.1) ∧ Mem.risesFrom none m = true := by
  simp only [Mem.risesFrom, Mem.risesFrom_some]

/-- The canonical form, cell by cell. -/
theorem Mem.wf_cons {k : Nat} {v : Byte} {m : Mem} :
    Mem.wf ((k, v) :: m) = true ↔ (∀ c ∈ m, k < c.1) ∧ v ≠ unlistedByte ∧ Mem.wf m = true := by
  simp only [Mem.wf, Bool.and_eq_true, Mem.risesFrom_cons, List.all_cons, bne_iff_ne]
  tauto

theorem Mem.wf_nil : Mem.wf [] = true := rfl

theorem Mem.mem_insert {m : Mem} {a : Nat} {v : Byte} {c : Host.Cell} (h : c ∈ Mem.insert m a v) :
    c = (a, v) ∨ c ∈ m := by
  induction m with
  | nil => simpa [Mem.insert] using h
  | cons d m ih =>
    obtain ⟨k, u⟩ := d
    simp only [Mem.insert] at h
    split at h
    · simpa using h
    · split at h
      · simp only [List.mem_cons] at h ⊢; tauto
      · simp only [List.mem_cons] at h ⊢
        rcases h with h | h
        · exact .inr (.inl h)
        · rcases ih h with h | h <;> tauto

theorem Mem.erase_wf {m : Mem} (a : Nat) (h : Mem.wf m = true) : Mem.wf (Mem.erase m a) = true := by
  induction m with
  | nil => rfl
  | cons c m ih =>
    obtain ⟨k, v⟩ := c
    obtain ⟨hk, hv, hm⟩ := Mem.wf_cons.1 h
    simp only [Mem.erase, List.filter_cons] at ih ⊢
    split
    · exact Mem.wf_cons.2 ⟨fun c hc => hk c (List.mem_of_mem_filter hc), hv, ih hm⟩
    · exact ih hm

theorem Mem.insert_wf {m : Mem} (a : Nat) {v : Byte} (hv : v ≠ unlistedByte) (h : Mem.wf m = true) :
    Mem.wf (Mem.insert m a v) = true := by
  induction m with
  | nil => exact Mem.wf_cons.2 ⟨by simp, hv, rfl⟩
  | cons c m ih =>
    obtain ⟨k, u⟩ := c
    obtain ⟨hk, hu, hm⟩ := Mem.wf_cons.1 h
    simp only [Mem.insert]
    split
    · rename_i hlt
      refine Mem.wf_cons.2 ⟨?_, hv, h⟩
      intro c hc
      rcases List.mem_cons.1 hc with rfl | hc
      · exact hlt
      · exact Nat.lt_trans hlt (hk c hc)
    · split
      · rename_i heq
        subst heq
        exact Mem.wf_cons.2 ⟨hk, hv, hm⟩
      · refine Mem.wf_cons.2 ⟨?_, hu, ih hm⟩
        intro c hc
        rcases Mem.mem_insert hc with rfl | hc
        · show k < a; omega
        · exact hk c hc

/-- A write keeps the canonical form. -/
theorem Mem.write_wf {m : Mem} (a : Nat) (v : Byte) (h : Mem.wf m = true) : Mem.wf (Mem.write m a v) = true := by
  unfold Mem.write
  split
  · exact Mem.erase_wf a h
  · rename_i hv; exact Mem.insert_wf a hv h

/-- A write below the depth keeps every listed address below it. -/
theorem Mem.write_within {d : Nat} {m : Mem} {a : Nat} (v : Byte) (ha : a < d) (h : Mem.within d m = true) :
    Mem.within d (Mem.write m a v) = true := by
  simp only [Mem.within, List.all_eq_true, decide_eq_true_eq] at h ⊢
  intro c hc
  unfold Mem.write at hc
  split at hc
  · exact h c (List.mem_of_mem_filter hc)
  · rcases Mem.mem_insert hc with rfl | hc
    · exact ha
    · exact h c hc

theorem Mem.mem_load {vs : List Byte} {a : Nat} {c : Host.Cell} (h : c ∈ Mem.load a vs) :
    a ≤ c.1 ∧ c.1 < a + vs.length := by
  induction vs generalizing a with
  | nil => simp [Mem.load] at h
  | cons v vs ih =>
    simp only [Mem.load] at h
    simp only [List.length_cons]
    split at h
    · have := ih h; omega
    · rcases List.mem_cons.1 h with rfl | h
      · simp
      · have := ih h; omega

/-- Initial contents are in the canonical form. -/
theorem Mem.load_wf (a : Nat) (vs : List Byte) : Mem.wf (Mem.load a vs) = true := by
  induction vs generalizing a with
  | nil => rfl
  | cons v vs ih =>
    simp only [Mem.load]
    split
    · exact ih (a + 1)
    · rename_i hv
      refine Mem.wf_cons.2 ⟨?_, hv, ih (a + 1)⟩
      intro c hc
      have := Mem.mem_load hc
      omega

/-- Initial contents no longer than the depth lie below it (R43). -/
theorem Mem.load_within {d : Nat} {vs : List Byte} (h : vs.length ≤ d) : Mem.within d (Mem.load 0 vs) = true := by
  simp only [Mem.within, List.all_eq_true, decide_eq_true_eq]
  intro c hc
  have := Mem.mem_load hc
  omega

theorem Mem.read_absent {m : Mem} {a : Nat} (h : ∀ c ∈ m, c.1 ≠ a) : Mem.read m a = unlistedByte := by
  induction m with
  | nil => rfl
  | cons c m ih =>
    obtain ⟨k, v⟩ := c
    have hk : k ≠ a := h (k, v) (by simp)
    simp only [Mem.read]
    rw [if_neg (fun e => hk e.symm)]
    exact ih (fun c hc => h c (by simp [hc]))

/-- Byte `i` of the initial contents is at address `i`, and every address past them reads 0 (R43). -/
theorem Mem.read_load (vs : List Byte) (a i : Nat) : Mem.read (Mem.load a vs) (a + i) = vs.getD i unlistedByte := by
  induction vs generalizing a i with
  | nil => simp [Mem.load, Mem.read]
  | cons v vs ih =>
    cases i with
    | zero =>
      simp only [Mem.load, Nat.add_zero, List.getD_cons_zero]
      split
      · rename_i hv
        rw [hv]
        exact Mem.read_absent (fun c hc => by have := Mem.mem_load hc; omega)
      · simp [Mem.read]
    | succ i =>
      have := ih (a + 1) i
      rw [show a + (i + 1) = a + 1 + i by omega]
      simp only [Mem.load, List.getD_cons_succ]
      split
      · exact this
      · simp only [Mem.read]
        rw [if_neg (by omega)]
        exact this

end Sys2Proof.Machine
end

