-- ==== Sys2Proof/Laws/State.lean ====
section
/-! SUPPORT. One lemma for each field and each named update of State, so that no later proof unfolds one. -/

namespace Sys2Proof.Machine

section setCrossing
variable (s : State) (x : CrossingId) (c : Crossing)
@[simp] theorem State.setCrossing_cfg : (s.setCrossing x c).cfg = s.cfg := by cases x <;> rfl
@[simp] theorem State.setCrossing_btx : (s.setCrossing x c).btx = s.btx := by cases x <;> rfl
@[simp] theorem State.setCrossing_lrx : (s.setCrossing x c).lrx = s.lrx := by cases x <;> rfl
@[simp] theorem State.setCrossing_ltx : (s.setCrossing x c).ltx = s.ltx := by cases x <;> rfl
@[simp] theorem State.setCrossing_pdm : (s.setCrossing x c).pdm = s.pdm := by cases x <;> rfl
@[simp] theorem State.setCrossing_capbuf : (s.setCrossing x c).capbuf = s.capbuf := by cases x <;> rfl
@[simp] theorem State.setCrossing_repbuf : (s.setCrossing x c).repbuf = s.repbuf := by cases x <;> rfl
@[simp] theorem State.setCrossing_capRdata : (s.setCrossing x c).capRdata = s.capRdata := by cases x <;> rfl
@[simp] theorem State.setCrossing_repRdata : (s.setCrossing x c).repRdata = s.repRdata := by cases x <;> rfl
@[simp] theorem State.setCrossing_recent : (s.setCrossing x c).recent = s.recent := by cases x <;> rfl
@[simp] theorem State.setCrossing_sysCycle : (s.setCrossing x c).sysCycle = s.sysCycle := by cases x <;> rfl
@[simp] theorem State.setCrossing_inp : (s.setCrossing x c).inp = s.inp := by cases x <;> rfl
@[simp] theorem State.setCrossing_script : (s.setCrossing x c).script = s.script := by cases x <;> rfl
@[simp] theorem State.setCrossing_draw : (s.setCrossing x c).draw = s.draw := by cases x <;> rfl
@[simp] theorem State.setCrossing_edges : (s.setCrossing x c).edges = s.edges := by cases x <;> rfl

@[simp] theorem State.setCrossing_same : (s.setCrossing x c).crossing x = c := by cases x <;> rfl

theorem State.setCrossing_other {y : CrossingId} (h : y ≠ x) : (s.setCrossing x c).crossing y = s.crossing y := by
  cases x <;> cases y <;> first | rfl | exact absurd rfl h

/-- The driver of a crossing is no part of a crossing's record. -/
@[simp] theorem State.setCrossing_cur (y : CrossingId) : (s.setCrossing x c).cur y = s.cur y := by
  cases x <;> cases y <;> rfl

@[simp] theorem State.setCrossing_reads (y : CrossingId) : (s.setCrossing x c).reads y = s.reads y := by
  cases x <;> cases y <;> rfl

/-- No source of a `send` reads a crossing's record. -/
@[simp] theorem State.setCrossing_sendLevel (u : Nat) : (s.setCrossing x c).sendLevel u = s.sendLevel u := by
  cases x <;> rfl

@[simp] theorem State.setCrossing_resolve (d : DrawSite) : (s.setCrossing x c).resolve d = s.resolve d := by
  cases x <;> rfl
end setCrossing

section writeCapbuf
variable (s : State)
@[simp] theorem State.writeCapbuf_cfg : s.writeCapbuf.cfg = s.cfg := rfl
@[simp] theorem State.writeCapbuf_btx : s.writeCapbuf.btx = s.btx := rfl
@[simp] theorem State.writeCapbuf_lrx : s.writeCapbuf.lrx = s.lrx := rfl
@[simp] theorem State.writeCapbuf_ltx : s.writeCapbuf.ltx = s.ltx := rfl
@[simp] theorem State.writeCapbuf_pdm : s.writeCapbuf.pdm = s.pdm := rfl
@[simp] theorem State.writeCapbuf_repbuf : s.writeCapbuf.repbuf = s.repbuf := rfl
@[simp] theorem State.writeCapbuf_capRdata : s.writeCapbuf.capRdata = s.capRdata := rfl
@[simp] theorem State.writeCapbuf_repRdata : s.writeCapbuf.repRdata = s.repRdata := rfl
@[simp] theorem State.writeCapbuf_sysCycle : s.writeCapbuf.sysCycle = s.sysCycle := rfl
@[simp] theorem State.writeCapbuf_inp : s.writeCapbuf.inp = s.inp := rfl
@[simp] theorem State.writeCapbuf_script : s.writeCapbuf.script = s.script := rfl
@[simp] theorem State.writeCapbuf_draw : s.writeCapbuf.draw = s.draw := rfl
@[simp] theorem State.writeCapbuf_edges : s.writeCapbuf.edges = s.edges := rfl
@[simp] theorem State.writeCapbuf_x1 : s.writeCapbuf.x1 = s.x1 := rfl
@[simp] theorem State.writeCapbuf_x2 : s.writeCapbuf.x2 = s.x2 := rfl
@[simp] theorem State.writeCapbuf_x3 : s.writeCapbuf.x3 = s.x3 := rfl
@[simp] theorem State.writeCapbuf_capbuf : s.writeCapbuf.capbuf = s.capbuf.write s.waddr s.wdatap := rfl
end writeCapbuf

section begin_
variable (s : State)
@[simp] theorem State.begin_cfg : s.begin.cfg = s.cfg := rfl
@[simp] theorem State.begin_btx : s.begin.btx = s.btx := rfl
@[simp] theorem State.begin_lrx : s.begin.lrx = s.lrx := rfl
@[simp] theorem State.begin_ltx : s.begin.ltx = s.ltx := rfl
@[simp] theorem State.begin_pdm : s.begin.pdm = s.pdm := rfl
@[simp] theorem State.begin_capbuf : s.begin.capbuf = s.capbuf := rfl
@[simp] theorem State.begin_repbuf : s.begin.repbuf = s.repbuf := rfl
@[simp] theorem State.begin_capRdata : s.begin.capRdata = s.capRdata := rfl
@[simp] theorem State.begin_repRdata : s.begin.repRdata = s.repRdata := rfl
@[simp] theorem State.begin_recent : s.begin.recent = s.recent := rfl
@[simp] theorem State.begin_sysCycle : s.begin.sysCycle = s.sysCycle := rfl
@[simp] theorem State.begin_edges : s.begin.edges = s.edges := rfl
@[simp] theorem State.begin_x1 : s.begin.x1 = s.x1 := rfl
@[simp] theorem State.begin_x2 : s.begin.x2 = s.x2 := rfl
@[simp] theorem State.begin_x3 : s.begin.x3 = s.x3 := rfl
@[simp] theorem State.begin_script : s.begin.script = s.script.tail := rfl
@[simp] theorem State.begin_inp : s.begin.inp = s.inp.applyAll s.event.drive := rfl
@[simp] theorem State.begin_draw : s.begin.draw = s.event.draw := rfl
@[simp] theorem State.begin_cur (x : CrossingId) : s.begin.cur x = s.cur x := by cases x <;> rfl
@[simp] theorem State.begin_crossing (x : CrossingId) : s.begin.crossing x = s.crossing x := by cases x <;> rfl
@[simp] theorem State.begin_reads (x : CrossingId) : s.begin.reads x = s.reads x := by cases x <;> rfl
end begin_

section noteChange
variable (b s : State) (x : CrossingId)
@[simp] theorem State.noteChange_cfg : (b.noteChange x s).cfg = s.cfg := by
  unfold State.noteChange; split <;> simp
@[simp] theorem State.noteChange_btx : (b.noteChange x s).btx = s.btx := by
  unfold State.noteChange; split <;> simp
@[simp] theorem State.noteChange_lrx : (b.noteChange x s).lrx = s.lrx := by
  unfold State.noteChange; split <;> simp
@[simp] theorem State.noteChange_ltx : (b.noteChange x s).ltx = s.ltx := by
  unfold State.noteChange; split <;> simp
@[simp] theorem State.noteChange_pdm : (b.noteChange x s).pdm = s.pdm := by
  unfold State.noteChange; split <;> simp
@[simp] theorem State.noteChange_capbuf : (b.noteChange x s).capbuf = s.capbuf := by
  unfold State.noteChange; split <;> simp
@[simp] theorem State.noteChange_repbuf : (b.noteChange x s).repbuf = s.repbuf := by
  unfold State.noteChange; split <;> simp
@[simp] theorem State.noteChange_capRdata : (b.noteChange x s).capRdata = s.capRdata := by
  unfold State.noteChange; split <;> simp
@[simp] theorem State.noteChange_repRdata : (b.noteChange x s).repRdata = s.repRdata := by
  unfold State.noteChange; split <;> simp
@[simp] theorem State.noteChange_recent : (b.noteChange x s).recent = s.recent := by
  unfold State.noteChange; split <;> simp
@[simp] theorem State.noteChange_sysCycle : (b.noteChange x s).sysCycle = s.sysCycle := by
  unfold State.noteChange; split <;> simp
@[simp] theorem State.noteChange_inp : (b.noteChange x s).inp = s.inp := by
  unfold State.noteChange; split <;> simp
@[simp] theorem State.noteChange_script : (b.noteChange x s).script = s.script := by
  unfold State.noteChange; split <;> simp
@[simp] theorem State.noteChange_draw : (b.noteChange x s).draw = s.draw := by
  unfold State.noteChange; split <;> simp
@[simp] theorem State.noteChange_edges : (b.noteChange x s).edges = s.edges := by
  unfold State.noteChange; split <;> simp

@[simp] theorem State.noteChange_cur (y : CrossingId) : (b.noteChange x s).cur y = s.cur y := by
  unfold State.noteChange; split <;> simp

/-- What a source edge leaves in a crossing's record (R125). -/
theorem State.noteChange_same : (b.noteChange x s).crossing x =
    if s.cur x = b.cur x then s.crossing x else { s.crossing x with prev := b.cur x, changed := true } := by
  unfold State.noteChange; split <;> simp

theorem State.noteChange_other {y : CrossingId} (h : y ≠ x) : (b.noteChange x s).crossing y = s.crossing y := by
  unfold State.noteChange; split
  · rfl
  · exact State.setCrossing_other _ _ _ h
end noteChange

section wire
variable (s : State) (x : CrossingId)
@[simp] theorem State.wire_cfg : (s.wire x).cfg = s.cfg := by cases x <;> rfl
@[simp] theorem State.wire_btx : (s.wire x).btx = s.btx := by cases x <;> rfl
@[simp] theorem State.wire_lrx : (s.wire x).lrx = s.lrx := by cases x <;> rfl
@[simp] theorem State.wire_ltx : (s.wire x).ltx = s.ltx := by cases x <;> rfl
@[simp] theorem State.wire_pdm : (s.wire x).pdm = s.pdm := by cases x <;> rfl
@[simp] theorem State.wire_capbuf : (s.wire x).capbuf = s.capbuf := by cases x <;> rfl
@[simp] theorem State.wire_repbuf : (s.wire x).repbuf = s.repbuf := by cases x <;> rfl
@[simp] theorem State.wire_capRdata : (s.wire x).capRdata = s.capRdata := by cases x <;> rfl
@[simp] theorem State.wire_repRdata : (s.wire x).repRdata = s.repRdata := by cases x <;> rfl
@[simp] theorem State.wire_recent : (s.wire x).recent = s.recent := by cases x <;> rfl
@[simp] theorem State.wire_sysCycle : (s.wire x).sysCycle = s.sysCycle := by cases x <;> rfl
@[simp] theorem State.wire_inp : (s.wire x).inp = s.inp := by cases x <;> rfl
@[simp] theorem State.wire_script : (s.wire x).script = s.script := by cases x <;> rfl
@[simp] theorem State.wire_draw : (s.wire x).draw = s.draw := by cases x <;> rfl
@[simp] theorem State.wire_edges : (s.wire x).edges = s.edges := by cases x <;> rfl

@[simp] theorem State.wire_cur (y : CrossingId) : (s.wire x).cur y = s.cur y := by cases x <;> cases y <;> rfl

/-- Under SINGLE the reader sees the driver's value (R123). -/
@[simp] theorem State.wire_sample : ((s.wire x).crossing x).sample = s.cur x := by cases x <;> rfl

theorem State.wire_other {y : CrossingId} (h : y ≠ x) : (s.wire x).crossing y = s.crossing y :=
  State.setCrossing_other _ _ _ h
end wire

section resetWith
variable (c : Params)
@[simp] theorem State.resetWith_cfg : (State.resetWith c).cfg = c := rfl
@[simp] theorem State.resetWith_btx : (State.resetWith c).btx = c.uarts.map Btx.reset := rfl
@[simp] theorem State.resetWith_lrx : (State.resetWith c).lrx = Lrx.reset c := rfl
@[simp] theorem State.resetWith_ltx : (State.resetWith c).ltx = Ltx.reset c := rfl
@[simp] theorem State.resetWith_pdm : (State.resetWith c).pdm = Pdm.reset c := rfl
@[simp] theorem State.resetWith_capbuf : (State.resetWith c).capbuf = c.captureInit := rfl
@[simp] theorem State.resetWith_repbuf : (State.resetWith c).repbuf = Mem.load 0 c.replayInit := rfl
@[simp] theorem State.resetWith_capRdata : (State.resetWith c).capRdata = 0#8 := rfl
@[simp] theorem State.resetWith_repRdata : (State.resetWith c).repRdata = 0#8 := rfl
@[simp] theorem State.resetWith_x1 : (State.resetWith c).x1 = Crossing.reset c .x1 := rfl
@[simp] theorem State.resetWith_x2 : (State.resetWith c).x2 = Crossing.reset c .x2 := rfl
@[simp] theorem State.resetWith_x3 : (State.resetWith c).x3 = Crossing.reset c .x3 := rfl
@[simp] theorem State.resetWith_recent : (State.resetWith c).recent = [] := rfl
@[simp] theorem State.resetWith_sysCycle : (State.resetWith c).sysCycle = 0 := rfl
@[simp] theorem State.resetWith_inp : (State.resetWith c).inp = Inputs.reset c := rfl
@[simp] theorem State.resetWith_script : (State.resetWith c).script = [] := rfl
@[simp] theorem State.resetWith_draw : (State.resetWith c).draw = none := rfl
@[simp] theorem State.resetWith_edges : (State.resetWith c).edges = 0 := rfl
end resetWith

end Sys2Proof.Machine
end

