-- ==== Sys2Proof/Laws/Word.lean ====
section
/-! SUPPORT. The laws of words: widths, unsigned values, bits. -/

namespace Sys2Proof

@[simp] theorem Word.ofNat_width (w n : Nat) : (Word.ofNat w n).width = w := rfl
@[simp] theorem Word.inc_width (x : Word) : x.inc.width = x.width := rfl
@[simp] theorem Word.dec_width (x : Word) : x.dec.width = x.width := rfl
@[simp] theorem Word.ones_width (w : Nat) : (Word.ones w).width = w := rfl
@[simp] theorem Word.ofBool_width (b : Bool) : (Word.ofBool b).width = 1 := rfl
@[simp] theorem Word.shiftInOne_width (x : Word) : x.shiftInOne.width = x.width := rfl
@[simp] theorem Word.serialFrame_width (n d : Nat) : (Word.serialFrame n d).width = n + 2 := rfl
@[simp] theorem Word.draw_width (p : Nat) (a b : Word) : (Word.draw p a b).width = b.width := rfl

@[simp] theorem Word.toNat_ofNat (w n : Nat) : (Word.ofNat w n).toNat = n % 2 ^ w := by
  simp [Word.ofNat, Word.toNat]

theorem Word.toNat_lt (x : Word) : x.toNat < 2 ^ x.width := x.bits.isLt

theorem Word.toNat_inc (x : Word) : x.inc.toNat = (x.toNat + 1) % 2 ^ x.width := by
  simp [Word.inc, Word.toNat, BitVec.toNat_add]

theorem Word.toNat_dec (x : Word) : x.dec.toNat = (2 ^ x.width - 1 % 2 ^ x.width + x.toNat) % 2 ^ x.width := by
  simp [Word.dec, Word.toNat, BitVec.toNat_sub]

/-- An increment that stays in the width does not wrap. -/
theorem Word.toNat_inc_of_lt {x : Word} (h : x.toNat + 1 < 2 ^ x.width) : x.inc.toNat = x.toNat + 1 := by
  rw [Word.toNat_inc, Nat.mod_eq_of_lt h]

/-- A decrement of a nonzero value does not wrap. -/
theorem Word.toNat_dec_of_pos {x : Word} (h : 0 < x.toNat) : x.dec.toNat = x.toNat - 1 := by
  have hx := x.toNat_lt
  have h1 : 1 % 2 ^ x.width = 1 := Nat.mod_eq_of_lt (by omega)
  rw [Word.toNat_dec, h1, show 2 ^ x.width - 1 + x.toNat = (x.toNat - 1) + 2 ^ x.width by omega,
    Nat.add_mod_right, Nat.mod_eq_of_lt (by omega)]

/-- A decrement of zero wraps to the largest value (R15). -/
theorem Word.toNat_dec_of_zero {x : Word} (hw : 0 < x.width) (h : x.toNat = 0) : x.dec.toNat = 2 ^ x.width - 1 := by
  have h2 : 1 < 2 ^ x.width := Nat.one_lt_two_pow (by omega)
  rw [Word.toNat_dec, Nat.mod_eq_of_lt h2, h, Nat.add_zero, Nat.mod_eq_of_lt (by omega)]

@[simp] theorem Word.asserted_ofBool (b : Bool) : (Word.ofBool b).asserted = b := by cases b <;> rfl

theorem Word.bit_ones {w i : Nat} (h : i < w) : (Word.ones w).bit i = true := by
  simp [Word.bit, Word.ones, h]

/-- The shift of BTX, bit by bit (R77). -/
theorem Word.bit_shiftInOne {x : Word} {i : Nat} (h : i < x.width) :
    x.shiftInOne.bit i = if i + 1 = x.width then true else x.bit (i + 1) := by
  simp only [Word.bit, Word.shiftInOne, BitVec.getLsbD_or, BitVec.getLsbD_ushiftRight, BitVec.getLsbD_twoPow]
  split
  · rename_i he
    have : x.width - 1 = i := by omega
    simp [this, h]
  · rename_i he
    have : ¬ x.width - 1 = i := by omega
    simp [this, Nat.add_comm]

/-- The loaded frame, bit by bit: start bit 0, the data bits, stop bit 1 (R54). -/
theorem Word.bit_serialFrame {n d j : Nat} (h : j < n + 2) :
    (Word.serialFrame n d).bit j = if j = 0 then false else if j = n + 1 then true else d.testBit (j - 1) := by
  simp only [Word.bit, Word.serialFrame, BitVec.getLsbD_or, BitVec.getLsbD_twoPow, BitVec.getLsbD_shiftLeft,
    BitVec.getLsbD_setWidth, BitVec.getLsbD_ofNat]
  by_cases h0 : j = 0
  · subst h0; simp
  · by_cases h1 : j = n + 1
    · subst h1; simp
    · have h2 : ¬ n + 1 = j := fun e => h1 e.symm
      have h3 : j - 1 < n := by omega
      have h4 : j - 1 < n + 2 := by omega
      have h5 : 1 ≤ j := by omega
      simp [h0, h1, h2, h3, h4, h]

/-- A per-bit draw, bit by bit (R17). -/
theorem getLsbD_drawBits {w : Nat} (p : Nat) (a b : BitVec w) (i : Nat) (h : i < w) :
    (drawBits p a b).getLsbD i = if p.testBit i then b.getLsbD i else a.getLsbD i := by
  simp only [drawBits, BitVec.getLsbD_or, BitVec.getLsbD_and, BitVec.getLsbD_not, BitVec.getLsbD_ofNat, h]
  cases p.testBit i <;> simp

/-- A draw between two equal values is that value. -/
theorem drawBits_self {w : Nat} (p : Nat) (a : BitVec w) : drawBits p a a = a := by
  apply BitVec.eq_of_getLsbD_eq
  intro i hi
  rw [getLsbD_drawBits p a a i hi]
  split <;> rfl

/-- `bitlen` bounds its argument: `v < 2 ^ bitlen v` (R10). -/
theorem lt_two_pow_bitlen (v : Nat) : v < 2 ^ bitlen v := by
  unfold bitlen
  split
  · omega
  · exact Nat.lt_log2_self

/-- `bc` holds `N + 2` (R10). -/
theorem UartCfg.bcw_holds (c : UartCfg) : c.n + 2 < 2 ^ c.bcw := lt_two_pow_bitlen _

/-- `dc` holds `K - 1` (R10). -/
theorem UartCfg.dcw_holds (c : UartCfg) : c.k - 1 < 2 ^ c.dcw :=
  Nat.lt_of_lt_of_le (lt_two_pow_bitlen _) (Nat.pow_le_pow_right (by decide) (Nat.le_max_right _ _))

/-- `pdm_dc` holds `DDIV - 2` in a legal configuration (R10). -/
theorem Params.pdw_holds {c : Params} (h : c.minPdw ≤ c.pdw) : c.ddiv - 2 < 2 ^ c.pdw :=
  Nat.lt_of_lt_of_le (lt_two_pow_bitlen _)
    (Nat.pow_le_pow_right (by decide) (Nat.le_trans (Nat.le_max_right _ _) h))

@[simp] theorem CycleSignal.at_wave (w : Waveform) (t : Nat) : (CycleSignal.wave w).at t = w.at t := rfl

@[simp] theorem CycleSignal.at_free (k t : Nat) : (CycleSignal.free k).at t = Config.freeSignal k t := rfl

/-- What a legal configuration says, clause by clause (R9 to R13). -/
theorem Params.legal_iff {c : Params} : c.legal = true ↔
    1 ≤ c.aw ∧ c.d = 2 ^ c.aw ∧ c.w = 8 ∧ 2 ≤ c.ddiv ∧ c.minPdw ≤ c.pdw ∧ c.err = false ∧ c.syncStages ≠ 1 ∧
    c.links = 1 ∧ c.replayInit.length ≤ c.d ∧ Machine.Mem.wf c.captureInit = true ∧
    Machine.Mem.within c.d c.captureInit = true ∧ c.replayLen < c.d ∧ ∀ u ∈ c.uarts, u.legal c.uarts.length = true := by
  simp [Params.legal]

end Sys2Proof
end

