-- ==== Sys2Proof/Laws/Ops.lean ====
section
/-! SUPPORT. What each shared operation can do, once each. -/

namespace Sys2Proof.Machine

section andThen
variable {α β : Type} {o : Result α} {f : α → Result β}

@[simp] theorem Result.andThen_next (a : α) : Result.andThen (.next a) f = f a := rfl

@[simp] theorem Result.andThen_fault (r : Fault) : Result.andThen (.fault r) f = .fault r := rfl

@[simp] theorem Result.andThen_refused (r : Refusal) : Result.andThen (.refused r) f = .refused r := rfl

/-- A sequence answers a next state exactly when both parts do. -/
theorem Result.andThen_eq_next {b : β} : o.andThen f = .next b ↔ ∃ a, o = .next a ∧ f a = .next b := by
  cases o <;> simp [Result.andThen]

/-- A sequence faults when its first part does, or its second after it. -/
theorem Result.andThen_eq_fault {r : Fault} :
    o.andThen f = .fault r ↔ o = .fault r ∨ ∃ a, o = .next a ∧ f a = .fault r := by
  cases o <;> simp [Result.andThen]
end andThen

/-- An update of an instance that exists: its registers change, nothing else does. -/
theorem State.updateBtx_of_some {s : State} {u : Nat} {c : UartCfg} {b : Btx} (f : UartCfg → Btx → Btx)
    (hc : s.cfg.uarts[u]? = some c) (hb : s.btx[u]? = some b) :
    s.updateBtx u f = .next { s with btx := s.btx.set u (f c b) } := by
  simp [State.updateBtx, hc, hb]

/-- Everything an update of a BTX instance can do. -/
theorem State.updateBtx_cases (s : State) (u : Nat) (f : UartCfg → Btx → Btx) :
    (∃ c b, s.cfg.uarts[u]? = some c ∧ s.btx[u]? = some b ∧
      s.updateBtx u f = .next { s with btx := s.btx.set u (f c b) }) ∨
    ((s.cfg.uarts[u]? = none ∨ s.btx[u]? = none) ∧ s.updateBtx u f = .refused .noSuchUnit) := by
  unfold State.updateBtx
  split
  · exact .inl ⟨_, _, ‹_›, ‹_›, rfl⟩
  · rename_i h
    refine .inr ⟨?_, rfl⟩
    cases hc : s.cfg.uarts[u]? with
    | none => exact .inl rfl
    | some c =>
      cases hb : s.btx[u]? with
      | none => exact .inr rfl
      | some b => exact (h c b hc hb).elim

/-- The step of a chain: the new value enters, the last stage is the sample, no change is pending (R128). -/
theorem State.shiftChain_of_last {s : State} {x : CrossingId} {last : Word} (v : Word)
    (h : (s.crossing x).chain.getLast? = some last) :
    s.shiftChain x v = .next (s.setCrossing x
      { s.crossing x with chain := v :: (s.crossing x).chain.dropLast, changed := false, sample := last }) := by
  simp [State.shiftChain, h]

/-- A chain with a stage steps; without one there is no such operation. -/
theorem State.shiftChain_cases (s : State) (x : CrossingId) (v : Word) :
    (∃ last, (s.crossing x).chain.getLast? = some last ∧ s.shiftChain x v = .next (s.setCrossing x
      { s.crossing x with chain := v :: (s.crossing x).chain.dropLast, changed := false, sample := last })) ∨
    ((s.crossing x).chain = [] ∧ s.shiftChain x v = .refused .noSuchUnit) := by
  cases h : (s.crossing x).chain.getLast? with
  | some last => exact .inl ⟨last, rfl, State.shiftChain_of_last v h⟩
  | none => exact .inr ⟨List.getLast?_eq_none_iff.1 h, by simp [State.shiftChain, h]⟩

/-- The draw the stimulus names. -/
theorem State.resolve_of_some {s : State} {d : EdgeDraw} (h : s.draw = some d) (site : DrawSite) :
    s.resolve site = d.at site := by simp [State.resolve, h]

/-- Each bit of a drawn crossing is the old or the new value's (R127). -/
theorem State.bit_drawCrossing (s : State) (x : CrossingId) {i : Nat} (h : i < (s.cur x).width) :
    (s.drawCrossing x).bit i =
      if (s.resolve (.crossing x)).pick.testBit i then (s.cur x).bit i else (s.crossing x).prev.bit i := by
  simp only [State.drawCrossing, Word.bit, Word.draw, getLsbD_drawBits _ _ _ i h, BitVec.getLsbD_setWidth, h,
    decide_true, Bool.true_and]

/-- A REPBUF read is the word at LTX's address: nothing writes REPBUF (R38, R40). -/
@[simp] theorem State.readPort_repbuf (s : State) : s.readPort .repbuf = s.repbuf.read s.ltx.raddr.toNat := rfl

/-- A CAPBUF read under DUAL of an address with no pending rx write is the word there (R42). -/
theorem State.readPort_dual {s : State} (h : s.cfg.clocking = .dual)
    (hr : recentByte s.recent s.pdm.raddr.toNat = none) :
    s.readPort .capbuf = s.capbuf.read s.pdm.raddr.toNat := by
  simp [State.readPort, h, State.raddr, hr]

/-- A CAPBUF read under DUAL of an address rx wrote since the last sys edge is a draw between before and after (R42). -/
theorem State.readPort_dual_recent {s : State} {before : Byte} (h : s.cfg.clocking = .dual)
    (hr : recentByte s.recent s.pdm.raddr.toNat = some before) :
    s.readPort .capbuf = drawBits (s.resolve .capRead).pick before (s.capbuf.read s.pdm.raddr.toNat) := by
  simp [State.readPort, h, State.raddr, hr]

/-- A CAPBUF read under SINGLE that meets no write of its address is the word there (R40). -/
theorem State.readPort_single {s : State} (h : s.cfg.clocking = .single)
    (hw : ¬(s.wen = true ∧ s.pdm.raddr.toNat = s.waddr)) :
    s.readPort .capbuf = s.capbuf.read s.pdm.raddr.toNat := by
  simp only [State.readPort, h, State.raddr, hw, if_false]

/-- A CAPBUF read under SINGLE of the address written at the same edge follows RDW (R41). -/
theorem State.readPort_single_collision {s : State} (h : s.cfg.clocking = .single) (hw : s.wen = true)
    (ha : s.pdm.raddr.toNat = s.waddr) :
    s.readPort .capbuf =
      match s.cfg.rdw with
      | .old => s.capbuf.read s.waddr
      | .new => s.wdatap
      | .any => drawBits (s.resolve .capRead).pick (s.capbuf.read s.waddr) s.wdatap := by
  cases hr : s.cfg.rdw <;> simp [State.readPort, h, State.raddr, hw, ha, hr]

/-- The byte a write leaves in CAPBUF (R39). -/
theorem State.writeCapbuf_read (s : State) (a : Nat) :
    s.writeCapbuf.capbuf.read a = if a = s.waddr then s.wdatap else s.capbuf.read a := by
  simp [Mem.read_write]

end Sys2Proof.Machine
end

