-- ==== Sys2Proof/Laws/Edge.lean ====
section
/-! SUPPORT. What an edge can do: which operation each place performs, and what an edge that answers a next state has
taken from each. -/

namespace Sys2Proof.Machine
open Sys2Proof

section perform
variable (s : State)

/-- What BTX performs (R61). -/
theorem perform_btx {u : Nat} {b : Btx} (h : s.btx[u]? = some b) : perform (.btx u) s = exec (
    if b.busy then (if b.divZero then .btxShift u else .btxHold u)
    else if s.sendLevel u then .btxLoad u else .btxIdle u) s := by
  unfold perform
  simp only [State.selector, State.btxSel, h]
  cases b.busy <;> cases b.divZero <;> cases s.sendLevel u <;>
    simp [decode, Port.width, Port.rows, Row.matchesWord, selWord]

/-- What LRX performs (R62). -/
theorem perform_lrx : perform .lrx s = exec (
    match s.lrx.state with
    | .idle => if s.validity then .lrxStart else .lrxIdle
    | .capture => if s.validity then .lrxCapture else .lrxEnd) s := by
  unfold perform
  simp only [State.selector, State.lrxSel]
  cases s.lrx.state <;> cases s.validity <;> rfl

/-- LRX.PIPE is performed at every rx edge (R85). -/
theorem perform_pipe : perform .pipe s = exec .lrxPipe s := by
  unfold perform
  simp only [State.selector, State.lrxSel]
  cases s.lrx.state <;> cases s.validity <;> rfl

/-- What LTX performs (R63). -/
theorem perform_ltx : perform .ltx s = exec (
    match s.ltx.state with
    | .idle => if s.ltxStart then .ltxStart else .ltxIdle
    | .data => if s.ltx.last then .ltxLast else .ltxStep) s := by
  unfold perform
  simp only [State.selector, State.ltxSel]
  cases s.ltx.state <;> cases s.ltx.last <;> cases s.ltxStart <;> rfl

/-- What PDM performs (R64). -/
theorem perform_pdm : perform .pdm s = exec (
    match s.pdm.state with
    | .idle => if s.pdmStart then .pdmStart else .pdmIdle
    | .data => .pdmFetch
    | .wait => if s.pdm.divZero then (if s.pdm.atEnd then .pdmDone else .pdmNext) else .pdmCount) s := by
  unfold perform
  simp only [State.selector, State.pdmSel]
  cases s.pdm.state <;> cases s.pdmStart <;> cases s.pdm.divZero <;> cases s.pdm.atEnd <;> rfl

/-- What CAPBUF's write port performs (R65). -/
theorem perform_capWrite : perform .capWrite s = exec (if s.wen then .memWrite else .memNowrite) s := by
  unfold perform
  simp only [State.selector, State.memwSel]
  cases s.wen <;> rfl

/-- A read port reads at every edge (R40, R65). -/
theorem perform_bufRead (b : BufId) : perform (.bufRead b) s = exec (.memRead b) s := by
  simp [perform, State.selector, decode, Port.width, Port.rows, Row.matchesWord]

/-- What a crossing performs (R66). -/
theorem perform_cross (x : CrossingId) : perform (.cross x) s = exec (
    if 2 ≤ s.cfg.syncStages then (if (s.crossing x).changed then .syncRace x else .syncShift x)
    else if (s.crossing x).changed then .cdcRace x else .cdcDirect x) s := by
  unfold perform
  simp only [State.selector, State.cdcSel]
  by_cases h : 2 ≤ s.cfg.syncStages <;> cases (s.crossing x).changed <;>
    simp [h, decode, Port.width, Port.rows, Row.matchesWord, selWord]
end perform

section frames
variable {s t : State}

/-- A place that answers a next state has run the operation its selector decodes to. -/
theorem perform_eq_next {p : Port} (h : perform p s = .next t) :
    ∃ i, decode p (s.selector p) = .ok i ∧ exec i s = .next t := by
  unfold perform at h
  split at h
  · exact ⟨_, ‹_›, h⟩
  · cases h

/-- A crossing faults only where it changed, has no synchronizer and is read (R127). -/
theorem perform_cross_eq_fault {x : CrossingId} {f : Fault} (h : perform (.cross x) s = .fault f) :
    f = .cdcMetastable x ∧ s.cfg.syncStages < 2 ∧ (s.crossing x).changed = true ∧ s.reads x = true := by
  rw [perform_cross] at h
  split at h
  · have key : ∀ v, s.shiftChain x v ≠ .fault f := fun v h => by
      rcases State.shiftChain_cases s x v with ⟨last, -, he⟩ | ⟨-, he⟩ <;> rw [he] at h <;> cases h
    split at h <;> exact absurd h (key _)
  · split at h
    · simp only [exec, execCdcRace, raise] at h
      split at h
      · split at h
        · cases h
          exact ⟨rfl, by omega, ‹_›, ‹_›⟩
        · cases h
      · cases h
    · cases h

/-- Whatever a crossing performs, only its own record changes. -/
theorem perform_cross_frame {x : CrossingId} (h : perform (.cross x) s = .next t) :
    ∃ r, t = s.setCrossing x r ∧ r.changed = false ∧ r.prev = (s.crossing x).prev := by
  rw [perform_cross] at h
  have shift : ∀ v, s.shiftChain x v = .next t →
      ∃ r, t = s.setCrossing x r ∧ r.changed = false ∧ r.prev = (s.crossing x).prev := by
    intro v hv
    rcases State.shiftChain_cases s x v with ⟨last, -, he⟩ | ⟨-, he⟩
    · rw [he] at hv
      cases hv
      exact ⟨_, rfl, rfl, rfl⟩
    · rw [he] at hv
      cases hv
  split at h
  · split at h
    · exact shift _ h
    · exact shift _ h
  · split at h
    · simp only [exec, execCdcRace, raise] at h
      split at h
      · split at h
        · cases h
        · cases h
          exact ⟨_, rfl, rfl, rfl⟩
      · cases h
        exact ⟨_, rfl, rfl, rfl⟩
    · simp only [exec, execCdcDirect] at h
      cases h
      exact ⟨_, rfl, rfl, rfl⟩

/-- A crossing answers where it has its chain and no race is read (R127 to R129). -/
theorem perform_cross_next {x : CrossingId} (hl : (s.crossing x).chain.length = s.cfg.syncStages)
    (h : 2 ≤ s.cfg.syncStages ∨ ((s.crossing x).changed = true → s.reads x = false)) :
    ∃ t, perform (.cross x) s = .next t := by
  rw [perform_cross]
  by_cases h2 : 2 ≤ s.cfg.syncStages
  · have key : ∀ v, ∃ t, s.shiftChain x v = .next t := fun v => by
      rcases State.shiftChain_cases s x v with ⟨l, -, he⟩ | ⟨hn, -⟩
      · exact ⟨_, he⟩
      · rw [hn] at hl
        simp at hl
        omega
    simp only [h2, if_true]
    split <;> exact key _
  · simp only [h2, if_false]
    split
    · rename_i hc
      simp [exec, execCdcRace, h.resolve_left h2 hc]
    · exact ⟨_, rfl⟩

/-- Whatever BTX performs, only its own instance changes. -/
theorem perform_btx_frame {u : Nat} (h : perform (.btx u) s = .next t) :
    t = { s with btx := t.btx } ∧ t.btx.length = s.btx.length ∧ ∀ v, v ≠ u → t.btx[v]? = s.btx[v]? := by
  have key : ∀ f, s.updateBtx u f = .next t →
      t = { s with btx := t.btx } ∧ t.btx.length = s.btx.length ∧ ∀ v, v ≠ u → t.btx[v]? = s.btx[v]? := by
    intro f hf
    rcases State.updateBtx_cases s u f with ⟨c, b, -, -, he⟩ | ⟨-, he⟩
    · rw [he] at hf
      cases hf
      exact ⟨rfl, by simp, fun v hv => by simp [Ne.symm hv]⟩
    · rw [he] at hf
      cases hf
  cases hb : s.btx[u]? with
  | none =>
    have hsel : perform (.btx u) s = s.updateBtx u fun _ b => b := by
      unfold perform
      simp [State.selector, State.btxSel, hb, decode, Port.width, Port.rows, Row.matchesWord, exec, execBtxIdle]
    rw [hsel] at h
    exact key _ h
  | some b =>
    rw [perform_btx s hb] at h
    split at h <;> split at h <;> exact key _ h

/-- BTX never faults. -/
theorem perform_btx_ne_fault (s : State) (u : Nat) (f : Fault) : perform (.btx u) s ≠ .fault f := fun h => by
  have key : ∀ g, s.updateBtx u g ≠ .fault f := fun g h => by
    rcases State.updateBtx_cases s u g with ⟨c, b, hc, hb, he⟩ | ⟨-, he⟩ <;> rw [he] at h <;> cases h
  unfold perform at h
  cases hb : s.btx[u]? with
  | none =>
    simp [State.selector, State.btxSel, hb, decode, Port.width, Port.rows, Row.matchesWord, exec, execBtxIdle] at h
    exact key _ h
  | some b =>
    change perform (.btx u) s = .fault f at h
    rw [perform_btx s hb] at h
    split at h <;> split at h <;> exact key _ h

/-- Whatever LRX performs, only its registers change, and CAPBUF as by MEM.WRITE. -/
theorem perform_lrx_frame (h : perform .lrx s = .next t) :
    t = { s with lrx := t.lrx, capbuf := t.capbuf, recent := t.recent } := by
  rw [perform_lrx] at h
  cases hs : s.lrx.state <;> cases hv : s.validity <;> simp only [hs, hv] at h <;> cases h <;> rfl

theorem perform_pipe_eq : perform .pipe s = .next { s with lrx := { s.lrx with wdata := s.inp.rxData } } := by
  rw [perform_pipe]
  rfl

/-- LTX always answers, and only its registers change. -/
theorem perform_ltx_next (s : State) : ∃ l, perform .ltx s = .next { s with ltx := l } := by
  rw [perform_ltx]
  cases s.ltx.state <;> cases s.ltxStart <;> cases s.ltx.last <;> exact ⟨_, rfl⟩

/-- PDM always answers, and only its registers change. -/
theorem perform_pdm_next (s : State) : ∃ p, perform .pdm s = .next { s with pdm := p } := by
  rw [perform_pdm]
  cases s.pdm.state <;> cases s.pdmStart <;> cases s.pdm.divZero <;> cases s.pdm.atEnd <;> exact ⟨_, rfl⟩

/-- LRX always answers. -/
theorem perform_lrx_next (s : State) : ∃ t, perform .lrx s = .next t := by
  rw [perform_lrx]
  cases s.lrx.state <;> cases s.validity <;> exact ⟨_, rfl⟩

/-- The registers LRX's operation leaves (R86 to R89). -/
theorem perform_lrx_regs (h : perform .lrx s = .next t) : t.lrx =
    match s.lrx.state, s.validity with
    | .idle, v => { s.lrx with
        frameAvail := false, frameLen := Word.ofNat s.cfg.aw 0
        cnt := Word.ofNat s.cfg.aw v.toNat, state := if v then .capture else .idle }
    | .capture, true => { s.lrx with cnt := s.lrx.cnt.inc }
    | .capture, false => { s.lrx with
        frameLen := s.lrx.cnt, frameAvail := true, cnt := Word.ofNat s.cfg.aw 0, state := .idle } := by
  rw [perform_lrx] at h
  cases hs : s.lrx.state <;> cases hv : s.validity <;> simp only [hs, hv] at h <;> cases h <;> simp [hs]

/-- The registers LTX's operation leaves (R97 to R100). -/
theorem perform_ltx_regs {l : Ltx} (h : perform .ltx s = .next { s with ltx := l }) : l =
    match s.ltx.state with
    | .idle => { s.ltx with
        len := s.ltxFrameLength, en := s.ltxStart, raddr := Word.ofNat s.cfg.aw s.ltxStart.toNat
        state := if s.ltxStart then .data else .idle }
    | .data => { s.ltx with raddr := s.ltx.raddr.inc, state := if s.ltx.last then .idle else .data } := by
  rw [perform_ltx] at h
  cases hs : s.ltx.state <;> cases hv : s.ltxStart <;> cases hl : s.ltx.last <;> simp only [hs, hv, hl] at h <;>
    · injection h with h
      have h := congrArg State.ltx h
      simp only [Bool.false_eq_true, if_false, if_true] at h ⊢
      exact h.symm.trans (by simp [hs])

/-- The registers PDM's operation leaves (R106 to R111). -/
theorem perform_pdm_regs {p : Pdm} (h : perform .pdm s = .next { s with pdm := p }) : p =
    match s.pdm.state with
    | .idle => { s.pdm with
        len := s.pdmLength, raddr := Word.ofNat s.cfg.aw 0, word := 0#8
        state := if s.pdmStart then .data else .idle }
    | .data => { s.pdm with
        dc := Word.ofNat s.cfg.pdw (s.cfg.ddiv - 2), raddr := s.pdm.raddr.inc, word := s.capRdata, strobe := false
        state := .wait }
    | .wait => { s.pdm with
        dc := s.pdm.dc.dec, strobe := true
        state := if s.pdm.divZero then (if s.pdm.atEnd then .idle else .data) else .wait } := by
  rw [perform_pdm] at h
  cases hs : s.pdm.state <;> cases hv : s.pdmStart <;> cases hz : s.pdm.divZero <;> cases he : s.pdm.atEnd <;>
    simp only [hs, hv, hz, he] at h <;>
    · injection h with h
      have h := congrArg State.pdm h
      simp only [Bool.false_eq_true, if_false, if_true] at h ⊢
      exact h.symm.trans (by simp [hs, State.rdata])

/-- The registers the operation of an existing BTX instance leaves (R74 to R77). -/
theorem perform_btx_regs {u : Nat} {c : UartCfg} {b : Btx} (hc : s.cfg.uarts[u]? = some c) (hb : s.btx[u]? = some b) :
    perform (.btx u) s = .next { s with btx := s.btx.set u (
      if b.busy then
        if b.divZero then ⟨b.sr.shiftInOne, b.bc.dec, Word.ofNat c.dcw (c.k - 1)⟩ else { b with dc := b.dc.dec }
      else if s.sendLevel u then
        ⟨Word.serialFrame c.n c.byte, Word.ofNat c.bcw (c.n + 2), Word.ofNat c.dcw (c.k - 1)⟩
      else b) } := by
  rw [perform_btx s hb]
  cases b.busy <;> cases b.divZero <;> cases s.sendLevel u <;> exact State.updateBtx_of_some _ hc hb

theorem perform_capWrite_eq (s : State) : perform .capWrite s = .next (if s.wen then s.writeCapbuf else s) := by
  rw [perform_capWrite]
  cases s.wen <;> rfl

theorem perform_bufRead_capbuf (s : State) :
    perform (.bufRead .capbuf) s = .next { s with capRdata := s.readPort .capbuf } :=
  perform_bufRead s .capbuf

theorem perform_bufRead_repbuf (s : State) :
    perform (.bufRead .repbuf) s = .next { s with repRdata := s.repbuf.read s.ltx.raddr.toNat } :=
  perform_bufRead s .repbuf
end frames

section nextBtx
variable {s : State}

/-- The next registers of the instances, one by one. -/
theorem nextBtx_eq_next {n u : Nat} {bs : List Btx} (h : nextBtx s (n + 1) u = .next bs) :
    ∃ a rest, perform (.btx u) s = .next a ∧ nextBtx s n (u + 1) = .next rest ∧ bs = a.btx[u]?.toList ++ rest := by
  simp only [nextBtx, Result.andThen_eq_next, Host.Outcome.next.injEq] at h
  obtain ⟨a, ha, rest, hr, rfl⟩ := h
  exact ⟨a, rest, ha, hr, rfl⟩

/-- The instances keep their number, and instance `u + i` is what its own operation gave. -/
theorem nextBtx_get {n u : Nat} {bs : List Btx} (hu : u + n ≤ s.btx.length) (h : nextBtx s n u = .next bs) :
    bs.length = n ∧ ∀ i < n, ∃ a, perform (.btx (u + i)) s = .next a ∧ bs[i]? = a.btx[u + i]? := by
  induction n generalizing u bs with
  | zero =>
    cases h
    exact ⟨rfl, fun i hi => absurd hi (Nat.not_lt_zero i)⟩
  | succ n ih =>
    obtain ⟨a, rest, ha, hr, rfl⟩ := nextBtx_eq_next h
    obtain ⟨hl, hg⟩ := ih (by omega) hr
    have hlen := (perform_btx_frame ha).2.1
    have hget : a.btx[u]? = some (a.btx[u]'(by omega)) := List.getElem?_eq_getElem (by omega)
    rw [hget]
    refine ⟨by simp [hl], fun i hi => ?_⟩
    cases i with
    | zero => exact ⟨a, ha, by simp⟩
    | succ i =>
      obtain ⟨a', ha', hi'⟩ := hg i (by omega)
      refine ⟨a', ?_, ?_⟩
      · rw [← ha']; congr 2; omega
      · rw [show u + (i + 1) = u + 1 + i by omega, ← hi']
        simp

/-- The BTX instances always answer where each has its UART_CFG entry. -/
theorem nextBtx_next (h : s.cfg.uarts.length = s.btx.length) {n u : Nat} (hu : u + n ≤ s.btx.length) :
    ∃ bs, nextBtx s n u = .next bs := by
  induction n generalizing u with
  | zero => exact ⟨[], rfl⟩
  | succ n ih =>
    obtain ⟨r, hr⟩ := ih (u := u + 1) (by omega)
    have h1 := perform_btx_regs (s := s) (u := u) (List.getElem?_eq_getElem (by omega))
      (List.getElem?_eq_getElem (by omega))
    exact ⟨_, by simp only [nextBtx, h1, hr, Result.andThen_next]; rfl⟩

/-- The BTX instances never fault. -/
theorem nextBtx_ne_fault (s : State) (n u : Nat) (f : Fault) : nextBtx s n u ≠ .fault f := fun h => by
  induction n generalizing u with
  | zero => cases h
  | succ n ih =>
    simp only [nextBtx, Result.andThen_eq_fault] at h
    rcases h with h | ⟨a, -, h | ⟨_, _, h⟩⟩
    · exact perform_btx_ne_fault s u f h
    · exact ih _ h
    · cases h
end nextBtx

section edges
variable {s t : State}

/-- What a sys edge takes from its blocks (R20, R121). -/
theorem sysBlocks_eq_next (h : sysBlocks s = .next t) : ∃ p bs, perform .pdm s = .next { s with pdm := p } ∧
    nextBtx s s.btx.length 0 = .next bs ∧
    t = { s with pdm := p, capRdata := s.readPort .capbuf, btx := bs, sysCycle := s.sysCycle + 1, recent := [] } := by
  obtain ⟨p, hp⟩ := perform_pdm_next s
  simp only [sysBlocks, hp, perform_bufRead_capbuf, Result.andThen_next, Result.andThen_eq_next,
    Host.Outcome.next.injEq] at h
  obtain ⟨bs, hb, rfl⟩ := h
  exact ⟨p, bs, hp, hb, rfl⟩

/-- The sys blocks never fault. -/
theorem sysBlocks_ne_fault (s : State) (f : Fault) : sysBlocks s ≠ .fault f := fun h => by
  obtain ⟨p, hp⟩ := perform_pdm_next s
  simp only [sysBlocks, hp, perform_bufRead_capbuf, Result.andThen_next, Result.andThen_eq_fault] at h
  rcases h with h | ⟨_, _, h⟩
  · exact nextBtx_ne_fault s _ _ f h
  · cases h

/-- The rx blocks always answer; what an rx edge takes from them (R20, R121). -/
theorem rxBlocks_next (s : State) : ∃ a l, perform .lrx s = .next a ∧ perform .ltx s = .next { s with ltx := l } ∧
    rxBlocks s = .next { s with
      capbuf := if s.wen then s.capbuf.write s.waddr s.wdatap else s.capbuf
      recent := if s.wen then s.writeCapbuf.recent else s.recent
      lrx := { a.lrx with wdata := s.inp.rxData }
      ltx := l
      repRdata := s.repbuf.read s.ltx.raddr.toNat } := by
  obtain ⟨a, ha⟩ := perform_lrx_next s
  obtain ⟨l, hl⟩ := perform_ltx_next s
  refine ⟨a, l, ha, hl, ?_⟩
  simp only [rxBlocks, perform_capWrite_eq, ha, perform_pipe_eq, hl, perform_bufRead_repbuf, Result.andThen_next]
  cases s.wen <;> rfl

/-- What a sys edge does under DUAL (R122). -/
theorem sysEdge_eq_next (h : sysEdge s = .next t) : ∃ s₁ s₂ u, perform (.cross .x1) s = .next s₁ ∧
    perform (.cross .x2) s₁ = .next s₂ ∧ sysBlocks s₂ = .next u ∧ t = s₂.noteChange .x3 u := by
  simp only [sysEdge, Result.andThen_eq_next, Host.Outcome.next.injEq] at h
  obtain ⟨s₁, h1, s₂, h2, u, hu, rfl⟩ := h
  exact ⟨s₁, s₂, u, h1, h2, hu, rfl⟩

/-- What an rx edge does under DUAL (R122). -/
theorem rxEdge_eq_next (h : rxEdge s = .next t) : ∃ s₁ u, perform (.cross .x3) s = .next s₁ ∧
    rxBlocks s₁ = .next u ∧ t = s₁.noteChange .x2 (s₁.noteChange .x1 u) := by
  simp only [rxEdge, Result.andThen_eq_next, Host.Outcome.next.injEq] at h
  obtain ⟨s₁, h1, u, hu, rfl⟩ := h
  exact ⟨s₁, u, h1, hu, rfl⟩

/-- What an edge does under SINGLE (R123). -/
theorem clkEdge_eq_next (h : clkEdge s = .next t) : ∃ a b,
    sysBlocks (((s.wire .x1).wire .x2).wire .x3) = .next a ∧ rxBlocks (((s.wire .x1).wire .x2).wire .x3) = .next b ∧
    t = { b with pdm := a.pdm, capRdata := a.capRdata, btx := a.btx, sysCycle := a.sysCycle } := by
  simp only [clkEdge, Result.andThen_eq_next, Host.Outcome.next.injEq] at h
  obtain ⟨a, ha, b, hb, rfl⟩ := h
  exact ⟨a, b, ha, hb, rfl⟩

/-- The rx edges before a free sys edge are counted off. -/
theorem Domain.freePlace_add {n k : Nat} (h : k ≤ (Domain.freePlace n).2) :
    Domain.freePlace (n + k) = ((Domain.freePlace n).1, (Domain.freePlace n).2 - k) := by
  induction k with
  | zero => rfl
  | succ k ih =>
    obtain ⟨j, hj⟩ : ∃ j, (Domain.freePlace n).2 - k = j + 1 := ⟨(Domain.freePlace n).2 - (k + 1), by omega⟩
    rw [← Nat.add_assoc, Domain.freePlace, ih (by omega), hj]
    exact Prod.ext rfl (by simp only; omega)

/-- From every edge on, a free interleaving comes to an edge of sys (or of the one clock) (R122). -/
theorem Domain.exists_free_ne_rx (c : Params) (n : Nat) : ∃ k, Domain.free c (n + k) ≠ .rx := by
  refine ⟨(Domain.freePlace n).2, ?_⟩
  unfold Domain.free
  cases c.clocking
  · rw [Domain.freePlace_add (Nat.le_refl _)]
    simp
  · exact fun h => by cases h

/-- An edge that no stimulus names is one that a stimulus could name. -/
theorem Event.free_legal (c : Params) (n : Nat) : (Event.free c n).legal c = true := by
  have hl : ∀ d ∈ Drive.freeLink n, d.legal c = true := by
    simp only [Drive.freeLink, List.mem_cons, List.not_mem_nil, or_false]
    rintro d (rfl | rfl)
    · exact decide_eq_true (Config.freeRxData n).isLt
    · exact decide_eq_true (Config.freeRxCtl n).isLt
  have hs : ∀ d ∈ Drive.freeSends c n, d.legal c = true := fun d h => (List.mem_filter.1 h).2
  simp only [Event.legal, Event.free, Bool.and_eq_true, List.all_eq_true]
  unfold Domain.free
  cases hc : c.clocking
  · by_cases hp : (Domain.freePlace n).2 = 0
    · simp only [hp, if_true]
      exact ⟨by simp [Domain.legal, hc], hs⟩
    · simp only [hp, if_false]
      exact ⟨by simp [Domain.legal, hc], hl⟩
  · exact ⟨by simp [Domain.legal, hc], fun d h => (List.mem_append.1 h).elim (hl d) (hs d)⟩

/-- The next edge of a legal stimulus is of a clock the configuration has. -/
theorem State.event_legal (h : s.script.all (Event.legal s.cfg) = true) : s.event.edge.legal s.cfg = true := by
  unfold State.event
  cases hs : s.script with
  | nil => exact (Bool.and_eq_true_iff.1 (Event.free_legal s.cfg s.edges)).1
  | cons e es =>
    rw [hs] at h
    simp only [List.all_cons, Bool.and_eq_true, Event.legal] at h
    exact h.1.1

/-- What a step that answers a next state has done. -/
theorem step_eq_next : step s = .next t ↔ s.cfg.legal = true ∧ s.script.all (Event.legal s.cfg) = true ∧
    ∃ u, edgeOf s.event.edge s.begin = .next u ∧ t = { u with edges := u.edges + 1 } := by
  unfold step runEdge
  by_cases hl : s.cfg.legal = true
  · by_cases hs : s.script.all (Event.legal s.cfg) = true
    · simp only [hl, hs, if_true, Result.andThen_eq_next, true_and]
      constructor
      · rintro ⟨u, hu, he⟩
        cases he
        exact ⟨u, hu, rfl⟩
      · rintro ⟨u, hu, rfl⟩
        exact ⟨u, hu, rfl⟩
    · simp [hl, hs]
  · simp [hl]
end edges

end Sys2Proof.Machine
end

