-- ==== Sys2Proof/Laws/Fields.lean ====
section
/-! SUPPORT. What an edge leaves in each field, one equation for each, so that no proof about a step unfolds an edge. -/

namespace Sys2Proof.Machine
open Sys2Proof

/-- The books of a crossing after a source edge that ended a cycle with driver value `before` (R125). -/
def Crossing.noted (r : Crossing) (before after : Word) : Crossing :=
  if after = before then r else { r with prev := before, changed := true }

/-- The fields after a sys edge under DUAL. `r₁`, `r₂` are the records of X1 and X2 after their operations, `m` is the
state the sys blocks step from, `p` and `bs` the next registers of PDM and of the BTX instances. -/
structure SysFields (s t : State) (r₁ r₂ : Crossing) (p : Pdm) (bs : List Btx) : Prop where
  cross₁ : perform (.cross .x1) s = .next { s with x1 := r₁ }
  cross₂ : perform (.cross .x2) { s with x1 := r₁ } = .next { s with x1 := r₁, x2 := r₂ }
  cleared₁ : r₁.changed = false ∧ r₁.prev = s.x1.prev
  cleared₂ : r₂.changed = false ∧ r₂.prev = s.x2.prev
  pdmStep : perform .pdm { s with x1 := r₁, x2 := r₂ } = .next { s with x1 := r₁, x2 := r₂, pdm := p }
  btxStep : nextBtx { s with x1 := r₁, x2 := r₂ } s.btx.length 0 = .next bs
  cfg : t.cfg = s.cfg
  btx : t.btx = bs
  lrx : t.lrx = s.lrx
  ltx : t.ltx = s.ltx
  pdm : t.pdm = p
  capbuf : t.capbuf = s.capbuf
  repbuf : t.repbuf = s.repbuf
  capRdata : t.capRdata = s.readPort .capbuf
  repRdata : t.repRdata = s.repRdata
  x1 : t.x1 = r₁
  x2 : t.x2 = r₂
  x3 : t.x3 = s.x3.noted (s.cur .x3) (t.cur .x3)
  recent : t.recent = []
  sysCycle : t.sysCycle = s.sysCycle + 1
  inp : t.inp = s.inp
  script : t.script = s.script
  draw : t.draw = s.draw
  edges : t.edges = s.edges

/-- The fields after an rx edge under DUAL. `r` is the record of X3 after its operation, `a` what LRX's operation
answers, `l` the next registers of LTX. -/
structure RxFields (s t : State) (r : Crossing) (a : State) (l : Ltx) : Prop where
  cross : perform (.cross .x3) s = .next { s with x3 := r }
  cleared : r.changed = false ∧ r.prev = s.x3.prev
  lrxStep : perform .lrx { s with x3 := r } = .next a
  ltxStep : perform .ltx { s with x3 := r } = .next { s with x3 := r, ltx := l }
  cfg : t.cfg = s.cfg
  btx : t.btx = s.btx
  lrx : t.lrx = { a.lrx with wdata := s.inp.rxData }
  ltx : t.ltx = l
  pdm : t.pdm = s.pdm
  capbuf : t.capbuf = if s.wen then s.capbuf.write s.waddr s.wdatap else s.capbuf
  repbuf : t.repbuf = s.repbuf
  capRdata : t.capRdata = s.capRdata
  repRdata : t.repRdata = s.repbuf.read s.ltx.raddr.toNat
  x1 : t.x1 = s.x1.noted (s.cur .x1) (t.cur .x1)
  x2 : t.x2 = s.x2.noted (s.cur .x2) (t.cur .x2)
  x3 : t.x3 = r
  recent : t.recent = if s.wen then s.writeCapbuf.recent else s.recent
  sysCycle : t.sysCycle = s.sysCycle
  inp : t.inp = s.inp
  script : t.script = s.script
  draw : t.draw = s.draw
  edges : t.edges = s.edges

/-- The state the blocks step from at an edge of the one clock: every crossing is a wire (R123). -/
def State.wired (s : State) : State :=
  { s with
    x1 := { s.x1 with sample := s.cur .x1 }, x2 := { s.x2 with sample := s.cur .x2 }
    x3 := { s.x3 with sample := s.cur .x3 } }

/-- The fields after an edge of the one clock under SINGLE. -/
structure ClkFields (s t : State) (p : Pdm) (bs : List Btx) (a : State) (l : Ltx) : Prop where
  pdmStep : perform .pdm s.wired = .next { s.wired with pdm := p }
  btxStep : nextBtx s.wired s.btx.length 0 = .next bs
  lrxStep : perform .lrx s.wired = .next a
  ltxStep : perform .ltx s.wired = .next { s.wired with ltx := l }
  cfg : t.cfg = s.cfg
  btx : t.btx = bs
  lrx : t.lrx = { a.lrx with wdata := s.inp.rxData }
  ltx : t.ltx = l
  pdm : t.pdm = p
  capbuf : t.capbuf = if s.wen then s.capbuf.write s.waddr s.wdatap else s.capbuf
  repbuf : t.repbuf = s.repbuf
  capRdata : t.capRdata = s.readPort .capbuf
  repRdata : t.repRdata = s.repbuf.read s.ltx.raddr.toNat
  x1 : t.x1 = { s.x1 with sample := s.cur .x1 }
  x2 : t.x2 = { s.x2 with sample := s.cur .x2 }
  x3 : t.x3 = { s.x3 with sample := s.cur .x3 }
  recent : t.recent = if s.wen then s.writeCapbuf.recent else s.recent
  sysCycle : t.sysCycle = s.sysCycle + 1
  inp : t.inp = s.inp
  script : t.script = s.script
  draw : t.draw = s.draw
  edges : t.edges = s.edges

variable {s t : State}

/-- The books that `noteChange` keeps, as one record. -/
theorem State.noteChange_noted (b s : State) (x : CrossingId) :
    (b.noteChange x s).crossing x = (s.crossing x).noted (b.cur x) (s.cur x) := by
  rw [State.noteChange_same]; rfl

theorem sysEdge_fields (h : sysEdge s = .next t) : ∃ r₁ r₂ p bs, SysFields s t r₁ r₂ p bs := by
  obtain ⟨s₁, s₂, u, h1, h2, h3, rfl⟩ := sysEdge_eq_next h
  obtain ⟨r₁, rfl, hc₁, hp₁⟩ := perform_cross_frame h1
  obtain ⟨r₂, rfl, hc₂, hp₂⟩ := perform_cross_frame h2
  obtain ⟨p, bs, hp, hb, rfl⟩ := sysBlocks_eq_next h3
  exact ⟨r₁, r₂, p, bs, {
    cross₁ := h1, cross₂ := h2, cleared₁ := ⟨hc₁, hp₁⟩, cleared₂ := ⟨hc₂, hp₂⟩, pdmStep := hp, btxStep := hb
    cfg := by simp, btx := by simp, lrx := by simp, ltx := by simp, pdm := by simp, capbuf := by simp
    repbuf := by simp, capRdata := by simp; rfl, repRdata := by simp
    x1 := State.noteChange_other (y := .x1) _ _ _ (by decide)
    x2 := State.noteChange_other (y := .x2) _ _ _ (by decide)
    x3 := by rw [State.noteChange_cur]; exact State.noteChange_noted _ _ .x3
    recent := by simp, sysCycle := by simp, inp := by simp, script := by simp, draw := by simp, edges := by simp }⟩

theorem rxEdge_fields (h : rxEdge s = .next t) : ∃ r a l, RxFields s t r a l := by
  obtain ⟨s₁, u, h1, h3, rfl⟩ := rxEdge_eq_next h
  obtain ⟨r, rfl, hc, hp⟩ := perform_cross_frame h1
  obtain ⟨a, l, ha, hl, hh⟩ := rxBlocks_next (s.setCrossing .x3 r)
  rw [hh] at h3
  cases h3
  exact ⟨r, a, l, {
    cross := h1, cleared := ⟨hc, hp⟩, lrxStep := ha, ltxStep := hl
    cfg := by simp, btx := by simp, lrx := by simp, ltx := by simp, pdm := by simp, capbuf := by simp; rfl
    repbuf := by simp, capRdata := by simp, repRdata := by simp
    x1 := (State.noteChange_other (y := .x1) _ _ _ (by decide)).trans (by
      rw [State.noteChange_cur, State.noteChange_cur]; exact State.noteChange_noted _ _ .x1)
    x2 := (State.noteChange_noted _ _ .x2).trans (by
      simp only [State.noteChange_cur, State.noteChange_other _ _ .x1 (y := .x2) (by decide)]; rfl)
    x3 := (State.noteChange_other (y := .x3) _ _ _ (by decide)).trans
      (State.noteChange_other (y := .x3) _ _ _ (by decide))
    recent := by simp; rfl, sysCycle := by simp, inp := by simp, script := by simp, draw := by simp
    edges := by simp }⟩

theorem clkEdge_fields (h : clkEdge s = .next t) : ∃ p bs a l, ClkFields s t p bs a l := by
  obtain ⟨u, b, hu, hb, rfl⟩ := clkEdge_eq_next h
  obtain ⟨p, bs, hp, hbs, rfl⟩ := sysBlocks_eq_next hu
  obtain ⟨a, l, ha, hl, hh⟩ := rxBlocks_next (((s.wire .x1).wire .x2).wire .x3)
  rw [hh] at hb
  cases hb
  exact ⟨p, bs, a, l, {
    pdmStep := hp, btxStep := hbs, lrxStep := ha, ltxStep := hl
    cfg := rfl, btx := rfl, lrx := rfl, ltx := rfl, pdm := rfl, capbuf := rfl, repbuf := rfl, capRdata := rfl
    repRdata := rfl, x1 := rfl, x2 := rfl, x3 := rfl, recent := rfl, sysCycle := rfl, inp := rfl, script := rfl
    draw := rfl, edges := rfl }⟩

/-- What a step leaves in each field, by the clock of its edge. -/
theorem step_fields (h : step s = .next t) :
    (s.event.edge = .sys ∧ s.cfg.clocking = .dual ∧
      ∃ u r₁ r₂ p bs, SysFields s.begin u r₁ r₂ p bs ∧ t = { u with edges := u.edges + 1 }) ∨
    (s.event.edge = .rx ∧ s.cfg.clocking = .dual ∧
      ∃ u r a l, RxFields s.begin u r a l ∧ t = { u with edges := u.edges + 1 }) ∨
    (s.event.edge = .clk ∧ s.cfg.clocking = .single ∧
      ∃ u p bs a l, ClkFields s.begin u p bs a l ∧ t = { u with edges := u.edges + 1 }) := by
  obtain ⟨-, hs, u, hu, rfl⟩ := step_eq_next.1 h
  have hd := State.event_legal hs
  cases he : s.event.edge <;> rw [he] at hu hd
  · obtain ⟨r₁, r₂, p, bs, hf⟩ := sysEdge_fields hu
    exact .inl ⟨rfl, by simpa [Domain.legal] using hd, u, r₁, r₂, p, bs, hf, rfl⟩
  · obtain ⟨r, a, l, hf⟩ := rxEdge_fields hu
    exact .inr (.inl ⟨rfl, by simpa [Domain.legal] using hd, u, r, a, l, hf, rfl⟩)
  · obtain ⟨p, bs, a, l, hf⟩ := clkEdge_fields hu
    exact .inr (.inr ⟨rfl, by simpa [Domain.legal] using hd, u, p, bs, a, l, hf, rfl⟩)

end Sys2Proof.Machine
end

