-- ==== Sys2Proof/Laws/Domain.lean ====
section
/-! SUPPORT. What a step leaves in each block, one equation for each, whichever clock ticks: for proofs that count the
edges of one domain and do not care for the other's. -/

namespace Sys2Proof.Machine
open Sys2Proof

variable {s t : State}

/-- A step counts its edge. -/
theorem step_edges (h : step s = .next t) : t.edges = s.edges + 1 := by
  rcases step_fields h with ⟨-, -, u, r₁, r₂, p, bs, F, rfl⟩ | ⟨-, -, u, r, a, l, F, rfl⟩ | ⟨-, -, u, p, bs, a, l, F, rfl⟩ <;>
    exact congrArg (· + 1) F.edges

/-- A step takes its edge off the stimulus. -/
theorem step_script (h : step s = .next t) : t.script = s.script.tail := by
  rcases step_fields h with ⟨-, -, u, r₁, r₂, p, bs, F, rfl⟩ | ⟨-, -, u, r, a, l, F, rfl⟩ | ⟨-, -, u, p, bs, a, l, F, rfl⟩ <;>
    exact F.script

/-- LRX after a step (R85 to R89, R122). -/
theorem step_lrx (h : step s = .next t) : t.lrx = if s.event.edge = .sys then s.lrx else
    match s.lrx.state, s.begin.validity with
    | .idle, v => ⟨if v then .capture else .idle, Word.ofNat s.cfg.aw v.toNat, false, Word.ofNat s.cfg.aw 0,
        s.begin.inp.rxData⟩
    | .capture, true => { s.lrx with cnt := s.lrx.cnt.inc, wdata := s.begin.inp.rxData }
    | .capture, false => ⟨.idle, Word.ofNat s.cfg.aw 0, true, s.lrx.cnt, s.begin.inp.rxData⟩ := by
  have key : ∀ x a : State, x.lrx = s.lrx → x.validity = s.begin.validity → x.cfg = s.cfg →
      perform .lrx x = .next a → { a.lrx with wdata := s.begin.inp.rxData } =
        match s.lrx.state, s.begin.validity with
        | .idle, v => ⟨if v then .capture else .idle, Word.ofNat s.cfg.aw v.toNat, false, Word.ofNat s.cfg.aw 0,
            s.begin.inp.rxData⟩
        | .capture, true => { s.lrx with cnt := s.lrx.cnt.inc, wdata := s.begin.inp.rxData }
        | .capture, false => (⟨.idle, Word.ofNat s.cfg.aw 0, true, s.lrx.cnt, s.begin.inp.rxData⟩ : Lrx) := by
    intro x a hl hv hc ha
    rw [perform_lrx_regs ha, hl, hv, hc]
    cases s.lrx.state <;> cases s.begin.validity <;> rfl
  rcases step_fields h with ⟨e, -, u, r₁, r₂, p, bs, F, rfl⟩ | ⟨e, -, u, r, a, l, F, rfl⟩ | ⟨e, -, u, p, bs, a, l, F, rfl⟩
  · rw [if_pos e]
    exact F.lrx
  · rw [if_neg (by rw [e]; decide)]
    exact F.lrx.trans (key { s.begin with x3 := r } a rfl rfl rfl F.lrxStep)
  · rw [if_neg (by rw [e]; decide)]
    exact F.lrx.trans (key s.begin.wired a rfl rfl rfl F.lrxStep)

/-- CAPBUF after a step: LRX writes in CAPTURE (R39, R84, R122). -/
theorem step_capbuf (h : step s = .next t) : t.capbuf =
    if s.event.edge ≠ .sys ∧ s.lrx.state = .capture then s.capbuf.write s.lrx.cnt.toNat s.lrx.wdata
    else s.capbuf := by
  have key : (if s.begin.wen then s.begin.capbuf.write s.begin.waddr s.begin.wdatap else s.begin.capbuf) =
      if s.lrx.state = .capture then s.capbuf.write s.lrx.cnt.toNat s.lrx.wdata else s.capbuf := by
    simp only [State.wen, State.waddr, State.wdatap, decide_eq_true_eq]
    rfl
  rcases step_fields h with ⟨e, -, u, r₁, r₂, p, bs, F, rfl⟩ | ⟨e, -, u, r, a, l, F, rfl⟩ | ⟨e, -, u, p, bs, a, l, F, rfl⟩
  · rw [if_neg (by simp [e])]
    exact F.capbuf
  · simp only [e, ne_eq, reduceCtorEq, not_false_eq_true, true_and]
    exact F.capbuf.trans key
  · simp only [e, ne_eq, reduceCtorEq, not_false_eq_true, true_and]
    exact F.capbuf.trans key

/-- LTX after a step, for the `start` it read (R97 to R100, R122). -/
theorem step_ltx (h : step s = .next t) : ∃ start : Bool, t.ltx = if s.event.edge = .sys then s.ltx else
    match s.ltx.state with
    | .idle => ⟨if start then .data else .idle, Word.ofNat s.cfg.aw s.cfg.replayLen, Word.ofNat s.cfg.aw start.toNat,
        start⟩
    | .data => { s.ltx with raddr := s.ltx.raddr.inc, state := if s.ltx.last then .idle else .data } := by
  have key : ∀ (x : State) (l : Ltx), x.ltx = s.ltx → x.cfg = s.cfg → perform .ltx x = .next { x with ltx := l } → l =
      match s.ltx.state with
      | .idle => ⟨if x.ltxStart then .data else .idle, Word.ofNat s.cfg.aw s.cfg.replayLen,
          Word.ofNat s.cfg.aw x.ltxStart.toNat, x.ltxStart⟩
      | .data => { s.ltx with raddr := s.ltx.raddr.inc, state := if s.ltx.last then .idle else .data } := by
    intro x l hl hc hp
    have hr := perform_ltx_regs hp
    rw [hl, hc, State.ltxFrameLength, hc] at hr
    exact hr.trans (by cases s.ltx.state <;> rfl)
  rcases step_fields h with ⟨e, -, u, r₁, r₂, p, bs, F, rfl⟩ | ⟨e, -, u, r, a, l, F, rfl⟩ | ⟨e, -, u, p, bs, a, l, F, rfl⟩
  · exact ⟨false, by rw [if_pos e]; exact F.ltx⟩
  · exact ⟨_, by
      rw [if_neg (by rw [e]; decide)]
      exact F.ltx.trans (key { s.begin with x3 := r } l rfl rfl F.ltxStep)⟩
  · exact ⟨_, by rw [if_neg (by rw [e]; decide)]; exact F.ltx.trans (key s.begin.wired l rfl rfl F.ltxStep)⟩

/-- REPBUF's read data after a step (R40, R122). -/
theorem step_repRdata (h : step s = .next t) : t.repRdata =
    if s.event.edge = .sys then s.repRdata else s.repbuf.read s.ltx.raddr.toNat := by
  rcases step_fields h with ⟨e, -, u, r₁, r₂, p, bs, F, rfl⟩ | ⟨e, -, u, r, a, l, F, rfl⟩ | ⟨e, -, u, p, bs, a, l, F, rfl⟩
  · rw [if_pos e]
    exact F.repRdata
  · rw [if_neg (by rw [e]; decide)]
    exact F.repRdata
  · rw [if_neg (by rw [e]; decide)]
    exact F.repRdata

/-- PDM after a step, for the `start` and the `length` it read (R106 to R111, R122). -/
theorem step_pdm (h : step s = .next t) : ∃ (start : Bool) (len : Word), t.pdm =
    if s.event.edge = .rx then s.pdm else
    match s.pdm.state with
    | .idle => { s.pdm with
        len := len, raddr := Word.ofNat s.cfg.aw 0, word := 0#8, state := if start then .data else .idle }
    | .data => { s.pdm with
        dc := Word.ofNat s.cfg.pdw (s.cfg.ddiv - 2), raddr := s.pdm.raddr.inc, word := s.capRdata, strobe := false
        state := .wait }
    | .wait => { s.pdm with
        dc := s.pdm.dc.dec, strobe := true
        state := if s.pdm.divZero then (if s.pdm.atEnd then .idle else .data) else .wait } := by
  have key : ∀ (x : State) (p : Pdm), x.pdm = s.pdm → x.cfg = s.cfg → x.capRdata = s.capRdata →
      perform .pdm x = .next { x with pdm := p } → p =
      match s.pdm.state with
      | .idle => { s.pdm with
          len := x.pdmLength, raddr := Word.ofNat s.cfg.aw 0, word := 0#8
          state := if x.pdmStart then .data else .idle }
      | .data => { s.pdm with
          dc := Word.ofNat s.cfg.pdw (s.cfg.ddiv - 2), raddr := s.pdm.raddr.inc, word := s.capRdata, strobe := false
          state := .wait }
      | .wait => { s.pdm with
          dc := s.pdm.dc.dec, strobe := true
          state := if s.pdm.divZero then (if s.pdm.atEnd then .idle else .data) else .wait } := by
    intro x p hx hc hr hp
    have hn := perform_pdm_regs hp
    rw [hx, hc, hr] at hn
    exact hn.trans (by cases s.pdm.state <;> rfl)
  rcases step_fields h with ⟨e, -, u, r₁, r₂, p, bs, F, rfl⟩ | ⟨e, -, u, r, a, l, F, rfl⟩ | ⟨e, -, u, p, bs, a, l, F, rfl⟩
  · exact ⟨_, _, by
      rw [if_neg (by rw [e]; decide)]
      exact F.pdm.trans (key { s.begin with x1 := r₁, x2 := r₂ } p rfl rfl rfl F.pdmStep)⟩
  · exact ⟨false, s.pdm.len, by rw [if_pos e]; exact F.pdm⟩
  · exact ⟨_, _, by
      rw [if_neg (by rw [e]; decide)]
      exact F.pdm.trans (key s.begin.wired p rfl rfl rfl F.pdmStep)⟩

/-- CAPBUF's read data after a step (R40, R122). -/
theorem step_capRdata (h : step s = .next t) : t.capRdata =
    if s.event.edge = .rx then s.capRdata else s.begin.readPort .capbuf := by
  rcases step_fields h with ⟨e, -, u, r₁, r₂, p, bs, F, rfl⟩ | ⟨e, -, u, r, a, l, F, rfl⟩ | ⟨e, -, u, p, bs, a, l, F, rfl⟩
  · rw [if_neg (by rw [e]; decide)]
    exact F.capRdata
  · rw [if_pos e]
    exact F.capRdata
  · rw [if_neg (by rw [e]; decide)]
    exact F.capRdata

/-- An existing BTX instance after a step (R74 to R77, R122). -/
theorem step_btx {u : Nat} {c : UartCfg} {b : Btx} (h : step s = .next t) (hc : s.cfg.uarts[u]? = some c)
    (hb : s.btx[u]? = some b) : t.btx[u]? = some (
      if s.event.edge = .rx then b
      else if b.busy then
        if b.divZero then ⟨b.sr.shiftInOne, b.bc.dec, Word.ofNat c.dcw (c.k - 1)⟩ else { b with dc := b.dc.dec }
      else if s.begin.sendLevel u then
        ⟨Word.serialFrame c.n c.byte, Word.ofNat c.bcw (c.n + 2), Word.ofNat c.dcw (c.k - 1)⟩
      else b) := by
  have hu : u < s.btx.length := (List.getElem?_eq_some_iff.1 hb).1
  have key : ∀ (x : State) (bs : List Btx), x.btx = s.btx → x.cfg = s.cfg → x.sendLevel u = s.begin.sendLevel u →
      nextBtx x s.btx.length 0 = .next bs → bs[u]? = some (
        if b.busy then
          if b.divZero then ⟨b.sr.shiftInOne, b.bc.dec, Word.ofNat c.dcw (c.k - 1)⟩ else { b with dc := b.dc.dec }
        else if s.begin.sendLevel u then
          ⟨Word.serialFrame c.n c.byte, Word.ofNat c.bcw (c.n + 2), Word.ofNat c.dcw (c.k - 1)⟩
        else b) := by
    intro x bs hx hcfg hs hn
    obtain ⟨a, ha, hbs⟩ := (nextBtx_get (by rw [hx]; omega) hn).2 u hu
    rw [Nat.zero_add] at ha hbs
    rw [perform_btx_regs (by rw [hcfg]; exact hc) (by rw [hx]; exact hb), hs] at ha
    cases ha
    rw [hbs]
    exact List.getElem?_set_self (by rw [hx]; exact hu)
  rcases step_fields h with ⟨e, -, v, r₁, r₂, p, bs, F, rfl⟩ | ⟨e, -, v, r, a, l, F, rfl⟩ | ⟨e, -, v, p, bs, a, l, F, rfl⟩
  · rw [if_neg (by rw [e]; decide)]
    exact (congrArg (·[u]?) F.btx).trans (key { s.begin with x1 := r₁, x2 := r₂ } bs rfl rfl rfl F.btxStep)
  · rw [if_pos e]
    exact (congrArg (·[u]?) F.btx).trans hb
  · rw [if_neg (by rw [e]; decide)]
    exact (congrArg (·[u]?) F.btx).trans (key s.begin.wired bs rfl rfl rfl F.btxStep)

end Sys2Proof.Machine
end

