-- ==== Sys2Proof/Laws/PerInstr.lean ====
section
/-! SUPPORT. The family EncodingFits, one lemma per operation: its selector word and its mask fit its format, and the
word has no bit outside the mask (R60 to R67). -/

namespace Sys2Proof.Laws.EncodingFits

def Statement (i : Instr) : Prop :=
  encode i < 2 ^ i.port.width ∧ i.mask < 2 ^ i.port.width ∧ encode i &&& i.mask = encode i

theorem btxIdle (u : Nat) : Statement (.btxIdle u) := by simp [Statement, encode, Instr.port, Instr.mask, Port.width]
theorem btxLoad (u : Nat) : Statement (.btxLoad u) := by simp [Statement, encode, Instr.port, Instr.mask, Port.width]
theorem btxHold (u : Nat) : Statement (.btxHold u) := by simp [Statement, encode, Instr.port, Instr.mask, Port.width]
theorem btxShift (u : Nat) : Statement (.btxShift u) := by simp [Statement, encode, Instr.port, Instr.mask, Port.width]
theorem lrxIdle : Statement .lrxIdle := by simp [Statement, encode, Instr.port, Instr.mask, Port.width]
theorem lrxStart : Statement .lrxStart := by simp [Statement, encode, Instr.port, Instr.mask, Port.width]
theorem lrxEnd : Statement .lrxEnd := by simp [Statement, encode, Instr.port, Instr.mask, Port.width]
theorem lrxCapture : Statement .lrxCapture := by simp [Statement, encode, Instr.port, Instr.mask, Port.width]
theorem lrxPipe : Statement .lrxPipe := by simp [Statement, encode, Instr.port, Instr.mask, Port.width]
theorem ltxIdle : Statement .ltxIdle := by simp [Statement, encode, Instr.port, Instr.mask, Port.width]
theorem ltxStart : Statement .ltxStart := by simp [Statement, encode, Instr.port, Instr.mask, Port.width]
theorem ltxStep : Statement .ltxStep := by simp [Statement, encode, Instr.port, Instr.mask, Port.width]
theorem ltxLast : Statement .ltxLast := by simp [Statement, encode, Instr.port, Instr.mask, Port.width]
theorem pdmIdle : Statement .pdmIdle := by simp [Statement, encode, Instr.port, Instr.mask, Port.width]
theorem pdmStart : Statement .pdmStart := by simp [Statement, encode, Instr.port, Instr.mask, Port.width]
theorem pdmFetch : Statement .pdmFetch := by simp [Statement, encode, Instr.port, Instr.mask, Port.width]
theorem pdmCount : Statement .pdmCount := by simp [Statement, encode, Instr.port, Instr.mask, Port.width]
theorem pdmNext : Statement .pdmNext := by simp [Statement, encode, Instr.port, Instr.mask, Port.width]
theorem pdmDone : Statement .pdmDone := by simp [Statement, encode, Instr.port, Instr.mask, Port.width]
theorem memWrite : Statement .memWrite := by simp [Statement, encode, Instr.port, Instr.mask, Port.width]
theorem memNowrite : Statement .memNowrite := by simp [Statement, encode, Instr.port, Instr.mask, Port.width]
theorem memRead (b : BufId) : Statement (.memRead b) := by simp [Statement, encode, Instr.port, Instr.mask, Port.width]
theorem cdcDirect (x : CrossingId) : Statement (.cdcDirect x) := by
  simp [Statement, encode, Instr.port, Instr.mask, Port.width]
theorem cdcRace (x : CrossingId) : Statement (.cdcRace x) := by
  simp [Statement, encode, Instr.port, Instr.mask, Port.width]
theorem syncShift (x : CrossingId) : Statement (.syncShift x) := by
  simp [Statement, encode, Instr.port, Instr.mask, Port.width]
theorem syncRace (x : CrossingId) : Statement (.syncRace x) := by
  simp [Statement, encode, Instr.port, Instr.mask, Port.width]

end Sys2Proof.Laws.EncodingFits
end

