-- ==== Sys2Proof/Laws/Run.lean ====
section
/-! SUPPORT. Runs of many steps, and the cycles of one domain in them, for inductions over the number of steps. -/

namespace Sys2Proof.Machine

/-- A run of `n + 1` steps is a step and a run of `n`. -/
theorem run_succ_eq_next {n : Nat} {s t : State} : Host.Core.run core (n + 1) s = .next t ↔
    ∃ u : State, step s = .next u ∧ Host.Core.run core n u = .next t := by
  have hs : core.step s = step s := rfl
  simp only [Host.Core.run, hs]
  cases step s with
  | next u => exact ⟨fun h => ⟨u, rfl, h⟩, fun ⟨_, hu, h⟩ => by cases hu; exact h⟩
  | fault r => exact ⟨fun h => (by cases h), fun ⟨_, hu, _⟩ => by cases hu⟩
  | refused r => exact ⟨fun h => (by cases h), fun ⟨_, hu, _⟩ => by cases hu⟩

/-- A run of `m + n` steps is a run of `m` and a run of `n`. -/
theorem run_add_eq_next {m n : Nat} {s t : State} : Host.Core.run core (m + n) s = .next t ↔
    ∃ u : State, Host.Core.run core m s = .next u ∧ Host.Core.run core n u = .next t := by
  induction m generalizing s with
  | zero => rw [Nat.zero_add]; exact ⟨fun h => ⟨s, rfl, h⟩, fun ⟨_, hu, h⟩ => by cases hu; exact h⟩
  | succ m ih =>
    rw [show m + 1 + n = m + n + 1 by omega]
    constructor
    · intro h
      obtain ⟨v, hv, h⟩ := run_succ_eq_next.1 h
      obtain ⟨u, hu, h⟩ := ih.1 h
      exact ⟨u, run_succ_eq_next.2 ⟨v, hv, hu⟩, h⟩
    · rintro ⟨u, hu, h⟩
      obtain ⟨v, hv, hu⟩ := run_succ_eq_next.1 hu
      exact run_succ_eq_next.2 ⟨v, hv, ih.2 ⟨u, hu, h⟩⟩

/-- A run of `n + 1` steps, from its last step. -/
theorem run_succ_eq_next_last {n : Nat} {s t : State} : Host.Core.run core (n + 1) s = .next t ↔
    ∃ u : State, Host.Core.run core n s = .next u ∧ step u = .next t := by
  rw [run_add_eq_next]
  refine exists_congr fun u => and_congr_right fun _ => ?_
  rw [show (1 : Nat) = 0 + 1 from rfl, run_succ_eq_next]
  exact ⟨fun ⟨v, hv, h⟩ => (by cases h; exact hv), fun h => ⟨t, h, rfl⟩⟩

/-- A state a run passes through steps on. -/
theorem run_step_of_lt {m n : Nat} {s u t : State} (hu : Host.Core.run core m s = .next u)
    (ht : Host.Core.run core n s = .next t) (h : m < n) : ∃ v, step u = .next v := by
  obtain ⟨d, rfl⟩ := Nat.le.dest h
  obtain ⟨x, hx, -⟩ := run_add_eq_next.1 ht
  obtain ⟨y, hy, hs⟩ := run_succ_eq_next_last.1 hx
  rw [hu] at hy
  cases hy
  exact ⟨x, hs⟩

section cycles
variable {m n : Nat} {s u : State}

@[simp] theorem State.rxCycles_zero (s : State) : s.rxCycles 0 = [] := rfl

@[simp] theorem State.sysEdges_zero (s : State) : s.sysEdges 0 = 0 := rfl

theorem State.rxCycles_succ (h : step s = .next u) : s.rxCycles (n + 1) =
    (if s.event.edge = .sys then [] else [(s.begin.validity, s.begin.inp.rxData)]) ++ u.rxCycles n := by
  simp only [State.rxCycles, h]
  split <;> rfl

theorem State.sysEdges_succ (h : step s = .next u) : s.sysEdges (n + 1) =
    (if s.event.edge = .rx then 0 else 1) + u.sysEdges n := by
  simp only [State.sysEdges, h]
  split <;> omega

/-- The rx cycles of a run in two parts. -/
theorem State.rxCycles_add (h : Host.Core.run core m s = .next u) :
    s.rxCycles (m + n) = s.rxCycles m ++ u.rxCycles n := by
  induction m generalizing s with
  | zero => cases h; simp
  | succ m ih =>
    obtain ⟨v, hv, h⟩ := run_succ_eq_next.1 h
    rw [Nat.add_right_comm, State.rxCycles_succ hv, State.rxCycles_succ hv, ih h, List.append_assoc]

/-- The sys edges of a run in two parts. -/
theorem State.sysEdges_add (h : Host.Core.run core m s = .next u) :
    s.sysEdges (m + n) = s.sysEdges m + u.sysEdges n := by
  induction m generalizing s with
  | zero => cases h; simp
  | succ m ih =>
    obtain ⟨v, hv, h⟩ := run_succ_eq_next.1 h
    rw [Nat.add_right_comm, State.sysEdges_succ hv, State.sysEdges_succ hv, ih h, Nat.add_assoc]

/-- The rx cycles of a run and one step more. -/
theorem State.rxCycles_last {t : State} (h : Host.Core.run core n s = .next u) (ht : step u = .next t) :
    s.rxCycles (n + 1) =
      s.rxCycles n ++ if u.event.edge = .sys then [] else [(u.begin.validity, u.begin.inp.rxData)] := by
  rw [State.rxCycles_add h, State.rxCycles_succ ht, State.rxCycles_zero, List.append_nil]

/-- The sys edges of a run and one step more. -/
theorem State.sysEdges_last {t : State} (h : Host.Core.run core n s = .next u) (ht : step u = .next t) :
    s.sysEdges (n + 1) = s.sysEdges n + if u.event.edge = .rx then 0 else 1 := by
  rw [State.sysEdges_add h, State.sysEdges_succ ht, State.sysEdges_zero, Nat.add_zero]

/-- The count of sys edges does not fall along a run. -/
theorem State.sysEdges_mono {t : State} (h : Host.Core.run core n s = .next t) (hm : m ≤ n) :
    s.sysEdges m ≤ s.sysEdges n := by
  obtain ⟨d, rfl⟩ := Nat.le.dest hm
  obtain ⟨u, hu, -⟩ := run_add_eq_next.1 h
  rw [State.sysEdges_add hu]
  exact Nat.le_add_right _ _

/-- Of the states of a run with one count of sys edges, one is about to make the next. -/
theorem State.sysEdges_inj {t : State} (hu : Host.Core.run core m s = .next u)
    (ht : Host.Core.run core n s = .next t) (hue : u.event.edge ≠ .rx) (hte : t.event.edge ≠ .rx)
    (h : s.sysEdges m = s.sysEdges n) : m = n := by
  have key : ∀ {a b : Nat} {x y : State}, Host.Core.run core a s = .next x → Host.Core.run core b s = .next y →
      x.event.edge ≠ .rx → s.sysEdges a = s.sysEdges b → b ≤ a := fun {a b x y} hx hy he hab => by
    by_contra hlt
    obtain ⟨v, hv⟩ := run_step_of_lt hx hy (by omega)
    have hl := State.sysEdges_last hx hv
    rw [if_neg he] at hl
    have hm := State.sysEdges_mono hy (show a + 1 ≤ b by omega)
    omega
  exact Nat.le_antisymm (key ht hu hte h.symm) (key hu ht hue h)
end cycles

end Sys2Proof.Machine
end

