-- ==== Sys2Proof/Tests/Slice0.lean ====
section
/-! SUPPORT. Tests. Expected values are those of spec/30_encoding.md and spec/95_test_vectors.md, named at each test.
The witnesses at the end meet the hypotheses of the statements, one theorem for each. -/

namespace Sys2Proof.Tests
open Sys2Proof Sys2Proof.Machine Sys2Proof.Claims

/-- A field of the next state, if there is one. -/
def after {α : Type} (o : Result State) (f : State → α) : Option α :=
  match o with
  | .next t => some (f t)
  | .fault _ => none
  | .refused _ => none

def faults (o : Result State) : Option Fault :=
  match o with
  | .fault f => some f
  | _ => none

def refuses (o : Result State) : Option Refusal :=
  match o with
  | .refused r => some r
  | _ => none

theorem next_of_after {α : Type} {o : Result State} {f : State → α} {v : α} (h : after o f = some v) :
    ∃ t, o = .next t ∧ f t = v := by
  cases o <;> simp_all [after]

theorem next_of_some {o : Result State} (h : (after o fun _ => ()).isSome = true) : ∃ t, o = .next t := by
  cases o <;> simp_all [after]

def uart : UartCfg := ⟨8, 2, 0xA5, .input⟩

/-- A small core on one clock: AW = 3, DDIV = 3, PDW = 1, REPBUF "ABCDEFGH", CAPBUF 0x10, 0x20, ... (VT6, VP). -/
def tiny : Params where
  aw := 3
  d := 8
  w := 8
  ddiv := 3
  pdw := 1
  err := false
  clocking := .single
  syncStages := 0
  rdw := .any
  links := 1
  replayInit := [0x41#8, 0x42#8, 0x43#8, 0x44#8, 0x45#8, 0x46#8, 0x47#8, 0x48#8]
  captureInit := [(0, 0x10#8), (1, 0x20#8), (2, 0x30#8), (3, 0x0F#8), (4, 0x50#8)]
  replayLen := 3
  trigger := .wave ⟨[false], [true]⟩
  uarts := [uart]

def dual : Params := { tiny with clocking := .dual }

def synced : Params := { dual with syncStages := 2 }

def s0 : State := State.resetWith tiny

def d0 : State := State.resetWith dual

def y0 : State := State.resetWith synced

/-- A register of three bits. -/
def w3 (n : Nat) : Word := Word.ofNat 3 n

def withBtx (sr bc dc : Nat) : State := { s0 with btx := [⟨Word.ofNat 10 sr, Word.ofNat 4 bc, Word.ofNat 1 dc⟩] }

def withLrx (s : State) (state : LrxState) (cnt : Nat) (wdata : Byte) : State :=
  { s with lrx := { s.lrx with state := state, cnt := w3 cnt, wdata := wdata } }

def withLtx (s : State) (state : LtxState) (raddr len : Nat) : State :=
  { s with ltx := ⟨state, w3 len, w3 raddr, true⟩ }

def withPdm (s : State) (state : PdmState) (raddr len dc : Nat) : State :=
  { s with pdm := ⟨state, w3 len, w3 raddr, Word.ofNat 1 dc, 0x30#8, true⟩ }

/-- The draws of an edge whose bits all follow `pick`; with `fault`, CDC.RACE takes its fault arm. -/
def drawn (fault : Bool) (pick : Nat) : EdgeDraw := ⟨⟨fault, pick⟩, ⟨fault, pick⟩, ⟨fault, pick⟩, ⟨fault, pick⟩⟩

def edge (d : Domain) (ds : List Drive) : List Event := [⟨d, ds, some (drawn false 0)⟩]

/-! ### Well-formedness: an ill-formed term for each check, refused -/

theorem test_wf_absent_instance : (Instr.btxLoad 1).wf tiny = false ∧ (Instr.btxLoad 0).wf tiny = true := by decide

theorem test_wf_other_instances : (Instr.btxIdle 1).wf tiny = false ∧ (Instr.btxHold 1).wf tiny = false ∧
    (Instr.btxShift 1).wf tiny = false := by decide

theorem test_wf_direct_with_synchronizer : (Instr.cdcDirect .x1).wf synced = false ∧
    (Instr.cdcRace .x1).wf synced = false ∧ (Instr.cdcDirect .x1).wf dual = true := by decide

theorem test_wf_direct_on_one_clock : (Instr.cdcDirect .x3).wf tiny = false ∧ (Instr.cdcRace .x3).wf tiny = false := by
  decide

theorem test_wf_sync_without_synchronizer : (Instr.syncShift .x2).wf dual = false ∧
    (Instr.syncRace .x2).wf dual = false ∧ (Instr.syncRace .x2).wf synced = true := by decide

theorem test_wf_sync_on_one_clock : (Instr.syncShift .x2).wf { tiny with syncStages := 2 } = false ∧
    (Instr.syncRace .x2).wf { tiny with syncStages := 2 } = false := by decide

/-- R9 to R13, an illegal value of each parameter that has one. -/
theorem test_param_illegal :
    tiny.legal = true ∧ { tiny with aw := 0, d := 1 }.legal = false ∧ { tiny with d := 7 }.legal = false ∧
    { tiny with w := 16 }.legal = false ∧ { tiny with ddiv := 1 }.legal = false ∧
    { tiny with ddiv := 4 }.legal = false ∧ { tiny with err := true }.legal = false ∧
    { tiny with syncStages := 1 }.legal = false ∧ { tiny with links := 2 }.legal = false ∧
    { tiny with replayInit := List.replicate 9 0#8 }.legal = false ∧ { tiny with replayLen := 8 }.legal = false := by
  decide

theorem test_param_illegal_uart : { tiny with uarts := [⟨0, 1, 0, .input⟩] }.legal = false ∧
    { tiny with uarts := [⟨1, 0, 0, .input⟩] }.legal = false ∧
    { tiny with uarts := [⟨1, 1, 2, .input⟩] }.legal = false ∧
    { tiny with captureInit := [(8, 1#8)] }.legal = false ∧
    { tiny with uarts := [⟨1, 1, 1, .core (.line 1)⟩] }.legal = false := by decide

/-- TRIGGER is any function, and `send` comes from anywhere in the sys domain (R12). -/
theorem test_param_open : { tiny with trigger := .free 0 }.legal = true ∧
    { tiny with uarts := [⟨1, 1, 1, .core (.line 0)⟩, ⟨1, 1, 1, .logic 0⟩, ⟨1, 1, 1, .cycle (.free 1)⟩] }.legal = true := by
  decide

/-! ### Decoding: selector words written bit by bit from R61 to R67, the free bits at either value -/

/-- R61, bits B Z S. -/
theorem test_decode_btx : decode (.btx 0) 0b010 = .ok (.btxIdle 0) ∧ decode (.btx 1) 0b011 = .ok (.btxLoad 1) ∧
    decode (.btx 2) 0b101 = .ok (.btxHold 2) ∧ decode (.btx 3) 0b110 = .ok (.btxShift 3) := by
  refine ⟨?_, ?_, ?_, ?_⟩ <;> rfl

/-- R62, bits C V. -/
theorem test_decode_lrx : decode .lrx 0b00 = .ok .lrxIdle ∧ decode .lrx 0b01 = .ok .lrxStart ∧
    decode .lrx 0b10 = .ok .lrxEnd ∧ decode .lrx 0b11 = .ok .lrxCapture ∧ decode .pipe 0b10 = .ok .lrxPipe := by
  refine ⟨?_, ?_, ?_, ?_, ?_⟩ <;> rfl

/-- R63, bits T E S. -/
theorem test_decode_ltx : decode .ltx 0b010 = .ok .ltxIdle ∧ decode .ltx 0b011 = .ok .ltxStart ∧
    decode .ltx 0b101 = .ok .ltxStep ∧ decode .ltx 0b111 = .ok .ltxLast := by
  refine ⟨?_, ?_, ?_, ?_⟩ <;> rfl

/-- R64, bits Q Q S Z E; the words of the trace of program P2. -/
theorem test_decode_pdm : decode .pdm 0b00011 = .ok .pdmIdle ∧ decode .pdm 0b00111 = .ok .pdmStart ∧
    decode .pdm 0b01010 = .ok .pdmFetch ∧ decode .pdm 0b10001 = .ok .pdmCount ∧ decode .pdm 0b10010 = .ok .pdmNext ∧
    decode .pdm 0b10011 = .ok .pdmDone := by
  refine ⟨?_, ?_, ?_, ?_, ?_, ?_⟩ <;> rfl

/-- R64: no row for `Q = 11`. -/
theorem test_decode_pdm_hole : decode .pdm 0b11010 = .error .noRow ∧ decode .pdm 0b100000 = .error .tooWide := by
  refine ⟨?_, ?_⟩ <;> rfl

/-- R65: the bit `wen`; the read port's word has no bits. -/
theorem test_decode_mem : decode .capWrite 1 = .ok .memWrite ∧ decode .capWrite 0 = .ok .memNowrite ∧
    decode (.bufRead .capbuf) 0 = .ok (.memRead .capbuf) ∧ decode (.bufRead .repbuf) 1 = .error .tooWide := by
  refine ⟨?_, ?_, ?_, ?_⟩ <;> rfl

/-- R66, bits Y U. -/
theorem test_decode_cdc : decode (.cross .x1) 0b00 = .ok (.cdcDirect .x1) ∧
    decode (.cross .x2) 0b01 = .ok (.cdcRace .x2) ∧ decode (.cross .x3) 0b10 = .ok (.syncShift .x3) ∧
    decode (.cross .x1) 0b11 = .ok (.syncRace .x1) := by
  refine ⟨?_, ?_, ?_, ?_⟩ <;> rfl

/-- The `match` column of the table. -/
theorem test_encode : encode (.btxShift 0) = 6 ∧ encode .lrxCapture = 3 ∧ encode .ltxLast = 6 ∧ encode .pdmDone = 19 ∧
    encode .memWrite = 1 ∧ encode (.syncRace .x1) = 3 := by decide

/-- Bare words (log 10): those only one format has, and the zero-bit word. -/
theorem test_bare_words : decodeTableWord 3 0b001 = some (.btxLoad 0) ∧ decodeTableWord 5 0b10011 = some .pdmDone ∧
    decodeTableWord 0 0 = some (.memRead .capbuf) := by decide

/-- A placed word is what the next edge performs: PDM.DONE leaves PDM idle with the strobe high. -/
theorem test_place_pdm_done : after (step (State.reset.withFetchWord 5 0b10011))
    (fun t => (t.pdm.state, t.pdm.strobe)) = some (.idle, true) := by decide

/-! ### BTX, the single-operation vectors of VB -/

def btxOf (t : State) : List (Nat × Nat × Nat) := t.btx.map fun b => (b.sr.toNat, b.bc.toNat, b.dc.toNat)

theorem test_btx_idle : after (exec (.btxIdle 0) (withBtx 0x3FF 0 1)) btxOf = some [(0x3FF, 0, 1)] := by decide

theorem test_btx_load : after (exec (.btxLoad 0) (withBtx 0x3FF 0 0)) btxOf = some [(0x34A, 10, 1)] := by decide

theorem test_btx_load_k1 : after (exec (.btxLoad 0) { withBtx 0x3FF 0 0 with cfg := { tiny with uarts := [⟨8, 1, 0, .input⟩] } })
    btxOf = some [(0x200, 10, 0)] := by decide

theorem test_btx_hold : after (exec (.btxHold 0) (withBtx 0x34A 10 1)) btxOf = some [(0x34A, 10, 0)] := by decide

theorem test_btx_shift : after (exec (.btxShift 0) (withBtx 0x34A 10 0)) btxOf = some [(0x3A5, 9, 1)] := by decide

theorem test_btx_shift_last : after (exec (.btxShift 0) (withBtx 0x3FF 1 0)) btxOf = some [(0x3FF, 0, 1)] := by decide

/-- VB2: a send while busy is dropped. -/
theorem test_btx_busy_send : after (step { withBtx 0x34A 10 0 with script := edge .clk [.send 0 1] }) btxOf =
    some [(0x3A5, 9, 1)] := by decide

/-- `send` wired to `trig`, `strobe`, `word_out[4]`, `word_out[0]`, the line of instance 0, and a waveform: in sys cycle 1
of `tiny` `trig` is 1, PDM shows 0x30 with the strobe high, and the line idles at 1. -/
theorem test_btx_wired_send : (List.range 6).map (State.sendLevel { withPdm s0 .idle 0 0 0 with
      sysCycle := 1
      cfg := { tiny with uarts := [.core .trig, .core .strobe, .core (.wordOut 4), .core (.wordOut 0), .core (.line 0),
        .cycle (.wave ⟨[], [true, false]⟩)].map fun x => ⟨8, 2, 0xA5, x⟩ } }) =
    [true, true, true, false, true, false] := by decide

/-- Two drives of one input in one cycle: the later line decides (log 22). A frame that closes in the cycle in which the
next one opens, both written as R71 expands them. -/
theorem test_drives_of_one_cycle : (Script.compile (Script.frame .rx 0 [0x11] ++ Script.frame .rx 1 [0x22])
      [.rx, .rx]).map Event.drive = [[.rxCtl 1, .rxData 0x11], [.rxCtl 0, .rxCtl 1, .rxData 0x22]] ∧
    ((Inputs.reset tiny).applyAll [.rxCtl 0, .rxCtl 1, .rxData 0x22]).rxCtl = 1#2 := by decide

/-- A drive of the other domain's input (log 23): it fits, and the level holds for the next edge of its own domain. -/
theorem test_drive_of_other_domain : Event.legal dual ⟨.rx, [.send 0 1], none⟩ = true ∧
    after (Host.Core.run core 2 { d0 with script := edge .rx [.send 0 1] ++ edge .sys [] }) btxOf =
      some [(0x34A, 10, 1)] := by decide

/-! ### LRX, the single-operation vectors of VR, as whole edges -/

def lrxOf (t : State) : LrxState × Nat × Bool × Nat × Byte :=
  (t.lrx.state, t.lrx.cnt.toNat, t.lrx.frameAvail, t.lrx.frameLen.toNat, t.lrx.wdata)

theorem test_lrx_idle : after (step { s0 with
      lrx := { s0.lrx with frameAvail := true, frameLen := w3 3 }, script := edge .clk [.rxData 0x99] }) lrxOf =
    some (.idle, 0, false, 0, 0x99#8) := by decide

theorem test_lrx_start : after (step { s0 with script := edge .clk [.rxCtl 1, .rxData 0x11] })
    (fun t => (lrxOf t, t.capbuf == s0.capbuf)) = some ((.capture, 1, false, 0, 0x11#8), true) := by decide

theorem test_lrx_capture : after (step { withLrx s0 .capture 1 0x11#8 with script := edge .clk [.rxCtl 1, .rxData 0x22] })
    (fun t => (t.lrx.cnt.toNat, t.lrx.wdata, t.capbuf.read 1)) = some (2, 0x22#8, 0x11#8) := by decide

theorem test_lrx_capture_wraps : after (exec .lrxCapture (withLrx s0 .capture 7 0xA7#8))
    (fun t => (t.lrx.cnt.toNat, t.capbuf.read 7)) = some (0, 0xA7#8) := by decide

theorem test_lrx_end : after (step { withLrx s0 .capture 3 0x33#8 with script := edge .clk [.rxData 0x44] })
    (fun t => (lrxOf t, t.capbuf.read 3)) = some ((.idle, 0, true, 3, 0x44#8), 0x33#8) := by decide

theorem test_lrx_pipe : after (exec .lrxPipe { s0 with inp := { s0.inp with rxData := 0x5A#8 } }) lrxOf =
    some (.idle, 0, false, 0, 0x5A#8) := by decide

/-- VR7: `rx_ctl[1]` is ignored. -/
theorem test_lrx_second_control_bit : after (step { s0 with script := edge .clk [.rxCtl 0b10] })
    (fun t => t.lrx.state) = some .idle := by decide

/-! ### LTX, the single-operation vectors of VT with `REPLAY_LEN = 3` -/

def ltxOf (t : State) : LtxState × Nat × Nat × Bool × Byte :=
  (t.ltx.state, t.ltx.raddr.toNat, t.ltx.len.toNat, t.ltx.en, t.repRdata)

/-- In sys cycle 0 the trigger of `tiny` is 0. -/
theorem test_ltx_idle : after (step { withLtx s0 .idle 3 3 with script := edge .clk [] }) ltxOf =
    some (.idle, 0, 3, false, 0x44#8) := by decide

/-- In sys cycle 1 it is 1. -/
theorem test_ltx_start : after (step { s0 with sysCycle := 1, script := edge .clk [] }) ltxOf =
    some (.data, 1, 3, true, 0x41#8) := by decide

theorem test_ltx_step : after (step { withLtx s0 .data 3 6 with script := edge .clk [] }) ltxOf =
    some (.data, 4, 6, true, 0x44#8) := by decide

theorem test_ltx_last : after (step { withLtx s0 .data 5 6 with script := edge .clk [] }) ltxOf =
    some (.idle, 6, 6, true, 0x46#8) := by decide

theorem test_ltx_last_short : after (step { withLtx s0 .data 1 1 with script := edge .clk [] }) ltxOf =
    some (.idle, 2, 1, true, 0x42#8) := by decide

/-! ### PDM, the single-operation vectors of VP with `DDIV = 3`, `PDW = 1` -/

/-- The state, then `raddr`, `len`, `dc`, `word` and `strobe` as numbers. -/
def pdmOf (t : State) : PdmState × List Nat :=
  (t.pdm.state, [t.pdm.raddr.toNat, t.pdm.len.toNat, t.pdm.dc.toNat, t.pdm.word.toNat, t.pdm.strobe.toNat])

theorem test_pdm_idle : after (step { withPdm s0 .idle 3 3 1 with script := edge .clk [] }) pdmOf =
    some (.idle, [0, 0, 1, 0, 1]) := by decide

theorem test_pdm_start : after (step { s0 with
      lrx := { s0.lrx with frameAvail := true, frameLen := w3 3 }, script := edge .clk [] })
    (fun t => (pdmOf t, t.capRdata)) = some ((.data, [0, 3, 0, 0, 0]), 0x10#8) := by decide

theorem test_pdm_fetch : after (step { withPdm s0 .data 0 3 0 with capRdata := 0x10#8, script := edge .clk [] })
    (fun t => (pdmOf t, t.capRdata)) = some ((.wait, [1, 3, 1, 0x10, 0]), 0x10#8) := by decide

theorem test_pdm_count : after (step { withPdm s0 .wait 1 3 1 with script := edge .clk [] })
    (fun t => (pdmOf t, t.capRdata)) = some ((.wait, [1, 3, 0, 0x30, 1]), 0x20#8) := by decide

theorem test_pdm_next : after (step { withPdm s0 .wait 1 3 0 with script := edge .clk [] }) pdmOf =
    some (.data, [1, 3, 1, 0x30, 1]) := by decide

theorem test_pdm_done : after (step { withPdm s0 .wait 3 3 0 with script := edge .clk [] }) pdmOf =
    some (.idle, [3, 3, 1, 0x30, 1]) := by decide

/-! ### MEM, VM1 to VM5 -/

theorem test_mem_write : after (exec .memWrite (withLrx s0 .capture 5 0x7A#8))
    (fun t => (t.capbuf.read 5, t.capbuf.read 4)) = some (0x7A#8, 0x50#8) := by decide

/-- The form stays: writing the byte an unlisted address reads as removes the cell. -/
theorem test_mem_write_zero : after (exec .memWrite (withLrx s0 .capture 4 0#8))
    (fun t => (t.capbuf.wf, t.capbuf.length, t.capbuf.read 4)) = some (true, 4, 0#8) := by decide

/-- The stores of the reset state are in the canonical form. -/
theorem test_reset_stores : State.reset.capbuf.wf = true ∧ State.reset.repbuf.wf = true := by decide

theorem test_mem_nowrite : after (exec .memNowrite (withLrx s0 .idle 5 0xFF#8)) (fun t => t.capbuf == s0.capbuf) =
    some true := by decide

/-- VM4: `CAPBUF[3] = 0x0F`, 0x0C is written and the address is read at the same edge. -/
def vm4 (r : ReadDuringWrite) (pick : Nat) : State :=
  { withPdm (withLrx (State.resetWith { tiny with rdw := r }) .capture 3 0x0C#8) .wait 3 5 1 with
    draw := some (drawn false pick) }

theorem test_mem_read_while_written : after (exec (.memRead .capbuf) (vm4 .old 0)) State.capRdata = some 0x0F#8 ∧
    after (exec (.memRead .capbuf) (vm4 .new 0)) State.capRdata = some 0x0C#8 ∧
    after (exec (.memRead .capbuf) (vm4 .any 0b01)) State.capRdata = some 0x0E#8 := by decide

/-- VM5: the write is an rx write since the last sys edge. -/
def vm5 : State := { withPdm d0 .wait 3 5 1 with
  capbuf := d0.capbuf.write 3 0x0C#8, recent := [(3, 0x0F#8)], draw := some (drawn false 0b10) }

theorem test_mem_read_across : after (exec (.memRead .capbuf) vm5) State.capRdata = some 0x0D#8 ∧
    after (exec (.memRead .capbuf) { vm5 with recent := [] }) State.capRdata = some 0x0C#8 := by decide

/-! ### CDC, VC1 to VC8 -/

/-- X1 with these books, PDM idle, `frame_avail` as given; the draws as named. -/
def vc (s : State) (avail prev changed : Bool) (d : EdgeDraw) : State :=
  { s with
    lrx := { s.lrx with frameAvail := avail }, draw := some d
    x1 := { s.x1 with prev := Word.ofBool prev, changed := changed } }

def x1Of (t : State) : Nat × Bool × List Nat := (t.x1.sample.toNat, t.x1.changed, t.x1.chain.map Word.toNat)

theorem test_cdc_direct : after (exec (.cdcDirect .x1) (vc d0 true false false (drawn true 0))) x1Of =
    some (1, false, []) := by decide

theorem test_cdc_race : after (exec (.cdcRace .x1) (vc d0 true false true (drawn false 0))) x1Of = some (0, false, []) ∧
    faults (exec (.cdcRace .x1) (vc d0 true false true (drawn true 0))) = some (.cdcMetastable .x1) := by decide

/-- VC6: 3 to 0, each low bit drawn by itself; VC5: not read, nothing sampled and no fault. -/
theorem test_cdc_race_length : after (exec (.cdcRace .x2) { d0 with
      draw := some (drawn false 0b01), x2 := { d0.x2 with prev := w3 3, changed := true } })
    (fun t => t.x2.sample.toNat) = some 2 ∧
    after (exec (.cdcRace .x1) (withPdm (vc d0 true false true (drawn true 0)) .wait 1 3 1)) x1Of =
      some (0, false, []) := by decide

/-- VC8. -/
theorem test_sync_shift : after (exec (.syncShift .x1) { vc y0 true false false (drawn false 0) with
      x1 := { y0.x1 with chain := [Word.ofBool true, Word.ofBool false] } }) x1Of = some (0, false, [1, 1]) := by decide

/-- VC7. -/
theorem test_sync_race : after (exec (.syncRace .x1) (vc y0 true false true (drawn true 0))) x1Of =
      some (0, false, [0, 0]) ∧
    after (exec (.syncRace .x1) (vc y0 true false true (drawn true 1))) x1Of = some (0, false, [1, 0]) := by decide

/-! ### Refusals -/

/-- R134: a value wider than its input, and an illegal parameter. -/
theorem test_illegal : refuses (step { s0 with script := edge .clk [.rxData 256] }) = some .scriptIllegal ∧
    refuses (step { s0 with script := edge .sys [] }) = some .scriptIllegal ∧
    refuses (step (State.resetWith { tiny with ddiv := 1 })) = some .paramIllegal ∧
    refuses (exec (.btxIdle 1) s0) = some .noSuchUnit ∧ refuses (exec (.syncShift .x1) d0) = some .noSuchUnit := by
  decide

/-- R71: a frame of two bytes as a script over four edges. -/
theorem test_script_frame : ((Script.compile (Script.frame .rx 1 [0x0A#8, 0x0B#8]) [.rx, .sys, .rx, .rx, .rx]).map
    Event.drive) = [[], [], [.rxCtl 1, .rxData 0x0A], [.rxCtl 1, .rxData 0x0B], [.rxCtl 0]] := by decide

/-! ### Witnesses: states and operands that meet the hypotheses of each statement

`∃ t, step s = .next t` and `∃ t, perform p s = .next t` are hypotheses of the statements about a next state. -/

/-- A state of this shape keeps it when the model's own view of the environment changes. -/
theorem shape_of_script {s : State} (h : s.Shape) (es : List Event) (n : Nat) :
    State.Shape { s with script := es, sysCycle := n } :=
  ⟨h.legal, h.btx, h.send, h.cnt, h.frameLen, h.ltxLen, h.ltxRaddr, h.pdmLen, h.pdmRaddr, h.pdmDc,
    fun x => by cases x <;> [exact h.crossing .x1; exact h.crossing .x2; exact h.crossing .x3],
    h.capbufWf, h.capbufWithin, h.repbuf⟩

/-- A busy BTX, LTX in a frame, PDM in a dump, on one clock. -/
def busy : State :=
  { withPdm (withLtx s0 .data 2 3) .wait 1 3 1 with btx := (withBtx 0x3FF 1 0).btx, script := edge .clk [] }

theorem busy_shape : busy.Shape :=
  ⟨by decide, .cons ⟨rfl, rfl, rfl⟩ .nil, rfl, rfl, rfl, rfl, rfl, rfl, rfl, rfl,
    fun x => by cases x <;> exact ⟨rfl, rfl, rfl, by decide⟩, by decide, by decide, by decide⟩

theorem s0_shape : s0.Shape :=
  ⟨by decide, .cons ⟨rfl, rfl, rfl⟩ .nil, rfl, rfl, rfl, rfl, rfl, rfl, rfl, rfl,
    fun x => by cases x <;> exact ⟨rfl, rfl, rfl, by decide⟩, by decide, by decide, by decide⟩

theorem d0_shape : d0.Shape :=
  ⟨by decide, .cons ⟨rfl, rfl, rfl⟩ .nil, rfl, rfl, rfl, rfl, rfl, rfl, rfl, rfl,
    fun x => by cases x <;> exact ⟨rfl, rfl, rfl, by decide⟩, by decide, by decide, by decide⟩

theorem y0_shape : y0.Shape :=
  ⟨by decide, .cons ⟨rfl, rfl, rfl⟩ .nil, rfl, rfl, rfl, rfl, rfl, rfl, rfl, rfl,
    fun x => by cases x <;> exact ⟨rfl, rfl, rfl, by decide⟩, by decide, by decide, by decide⟩

/-- All free bits set, none set, and a row without free bits. -/
theorem witness_DecodeOfEncodeIsTheOperation :
    (0b00111 < 2 ^ Instr.pdmFetch.port.width ∧ 0b00111 &&& Instr.pdmFetch.mask = 0) ∧
    (0b010 < 2 ^ (Instr.btxIdle 3).port.width ∧ 0b010 &&& (Instr.btxIdle 3).mask = 0) ∧
    (0 < 2 ^ (Instr.memRead .repbuf).port.width ∧ 0 &&& (Instr.memRead .repbuf).mask = 0) := by decide

/-- The last existing BTX instance, and the crossings of two clocks. -/
theorem witness_EverySelectorPicksAnOperation : (∀ u, Port.btx 0 = .btx u → u < s0.cfg.uarts.length) ∧
    (∀ x, Port.btx 0 = .cross x → s0.cfg.clocking = .dual) ∧
    (∀ u, Port.cross .x2 = .btx u → u < d0.cfg.uarts.length) ∧
    ∀ x, Port.cross .x2 = .cross x → d0.cfg.clocking = .dual :=
  ⟨fun u h => (by cases h; decide), fun _ h => (by cases h), fun _ h => (by cases h), fun _ _ => rfl⟩

/-- The four cases of the conclusion. -/
theorem witness_BtxSelectorPicks :
    (s0.btx[0]? = some (Btx.reset uart) ∧ (Btx.reset uart).bc.toNat = 0 ∧ s0.sendLevel 0 = false) ∧
    State.sendLevel { s0 with inp := ⟨0#8, 0#2, [true]⟩ } 0 = true ∧
    ((withBtx 0x34A 10 0).btx[0]?.map fun b => (b.bc.toNat, b.dc.toNat)) = some (10, 0) ∧
    ((withBtx 0x34A 10 1).btx[0]?.map fun b => (b.bc.toNat, b.dc.toNat)) = some (10, 1) := by decide

/-- R101: the short length, the last address and the address before it. -/
theorem witness_LtxSelectorPicks :
    (1 ≤ s0.ltx.len.width ∧ s0.ltx.state = .idle) ∧
    (1 ≤ (withLtx s0 .data 1 1).ltx.len.width ∧ (withLtx s0 .data 1 1).ltx.state = .data) ∧
    (withLtx s0 .data 2 3).ltx.raddr.toNat = (withLtx s0 .data 2 3).ltx.len.toNat - 1 ∧
    (withLtx s0 .data 1 3).ltx.raddr.toNat ≠ (withLtx s0 .data 1 3).ltx.len.toNat - 1 := by decide

theorem witness_BtxLoadPacksTheFrame :
    s0.cfg.uarts[0]? = some uart ∧ s0.btx[0]? = some (Btx.reset uart) := by decide

/-- Also the last bit of a frame. -/
theorem witness_BtxShiftMovesToTheNextBit : ∀ bc ∈ [10, 1],
    (withBtx 0x34A bc 0).cfg.uarts[0]? = some uart ∧
    ∃ b, (withBtx 0x34A bc 0).btx[0]? = some b ∧ Btx.Fits uart b ∧ b.bc.toNat ≠ 0 := by
  intro bc h
  refine ⟨rfl, _, rfl, ⟨rfl, rfl, rfl⟩, ?_⟩
  revert bc
  decide

theorem witness_BtxIdleAndHoldKeepTheLine : (withBtx 0x34A 10 1).cfg.uarts[0]? = some uart ∧
    ∃ b, (withBtx 0x34A 10 1).btx[0]? = some b ∧ b.dc.toNat ≠ 0 := ⟨rfl, _, rfl, by decide⟩

/-- The first number that names no instance, and a crossing without a chain. -/
theorem witness_AbsentUnitsAreRefused : s0.cfg.uarts[1]? = none ∧ (d0.crossing .x1).chain = [] := by decide

theorem witness_BusyBtxIgnoresSend : ∃ b, busy.btx[0]? = some b ∧ b.bc.toNat ≠ 0 ∧
    (∃ t, perform (.btx 0) busy = .next t) ∧ ∃ t, perform (.btx 0) { busy with inp := ⟨1#8, 1#2, [true]⟩ } = .next t :=
  ⟨_, rfl, by decide, next_of_some (by decide), next_of_some (by decide)⟩

/-- The hypothesis of LrxIdleAndStart, LtxIdleAndStart, ResetMeetsTheInvariants, ResetOutputs and ResetContents: one
clock, two clocks, a synchronizer, and the hardware's own configuration. -/
theorem witness_legal : s0.cfg.legal = true ∧ dual.legal = true ∧ synced.legal = true ∧
    Params.hardware.legal = true := by decide

/-- The counter at 1 and at its top, 2^AW - 1. -/
theorem witness_LrxCaptureStoresAndCounts : ∀ n ∈ [1, 7], (withLrx s0 .capture n 0x11#8).lrx.cnt.width = tiny.aw ∧
    (withLrx s0 .capture n 0x11#8).lrx.cnt.toNat = n := by decide

theorem witness_LrxIgnoresTheSecondControlBit :
    (2#2 : BitVec 2).getLsbD 0 = s0.inp.rxCtl.getLsbD 0 ∧ (∃ t, perform .lrx s0 = .next t) ∧
    ∃ t, perform .lrx { s0 with inp := { s0.inp with rxCtl := 2#2 } } = .next t :=
  ⟨by decide, next_of_some (by decide), next_of_some (by decide)⟩

theorem witness_LtxStepAndLastCount : ∀ n ∈ [1, 7], (withLtx s0 .data n 3).ltx.raddr.width = s0.cfg.aw ∧
    (withLtx s0 .data n 3).ltx.raddr.toNat = n := by decide

/-- PDM in both states outside `IDLE`. -/
theorem witness_BusyFramersIgnoreStart : (busy.ltx.state = .data ∧ (∃ t, perform .ltx busy = .next t) ∧
      ∃ t, perform .ltx { busy with x3 := settled tiny s0.x3 true } = .next t) ∧
    (busy.pdm.state ≠ .idle ∧ (∃ t, perform .pdm busy = .next t) ∧
      ∃ t, perform .pdm { busy with x1 := settled tiny s0.x1 true, x2 := s0.x2 } = .next t) ∧
    (withPdm s0 .data 0 3 0).pdm.state ≠ .idle :=
  ⟨⟨rfl, next_of_some (by decide), next_of_some (by decide)⟩,
    ⟨by decide, next_of_some (by decide), next_of_some (by decide)⟩, by decide⟩

theorem witness_PdmFetchLatchesTheWord : ∀ n ∈ [0, 7], (withPdm s0 .data n 3 0).cfg.legal = true ∧
    (withPdm s0 .data n 3 0).pdm.raddr.width = s0.cfg.aw ∧ (withPdm s0 .data n 3 0).pdm.raddr.toNat = n := by decide

/-- The divider at 0 and above it. -/
theorem witness_PdmCountNextAndDone : ∀ n ∈ [0, 1], 1 ≤ s0.cfg.pdw ∧ (withPdm s0 .wait 1 3 n).pdm.dc.width = s0.cfg.pdw ∧
    (withPdm s0 .wait 1 3 n).pdm.dc.toNat = n := by decide

/-- The case of two clocks of MEM.WRITE. -/
theorem witness_WritePortOperations : (withLrx d0 .capture 5 0x7A#8).cfg.clocking = .dual := by decide

/-- Each alternative; on one clock with no write, and with a write of another address. -/
theorem witness_ReadPortTakesTheAddressedWord :
    (s0.cfg.clocking = .single ∧ s0.lrx.state = .idle) ∧
    ((withLrx s0 .capture 5 0#8).lrx.state = .capture ∧ (withLrx s0 .capture 5 0#8).lrx.cnt.toNat ≠ s0.pdm.raddr.toNat) ∧
    (d0.cfg.clocking = .dual ∧ recentByte d0.recent d0.pdm.raddr.toNat = none) := by decide

/-- Each value of RDW. -/
theorem witness_ReadDuringWriteFollowsRdw : ∀ r ∈ [ReadDuringWrite.old, .new, .any],
    (vm4 r 0).cfg.clocking = .single ∧ (vm4 r 0).lrx.state = .capture ∧
    (vm4 r 0).pdm.raddr.toNat = (vm4 r 0).lrx.cnt.toNat ∧ (vm4 r 0).cfg.rdw = r := by decide

/-- With the new byte, the old byte and a mix of VM5. -/
theorem witness_ReadAcrossDomainsIsDrawn :
    vm5.cfg.clocking = .dual ∧ recentByte vm5.recent vm5.pdm.raddr.toNat = some 0x0F#8 ∧
    ∀ v ∈ [0x0C#8, 0x0D#8, 0x0F#8], BitwiseBetween (w := 8) 0x0F#8 (vm5.capbuf.read vm5.pdm.raddr.toNat) v := by
  refine ⟨by decide, by decide, ?_⟩
  unfold BitwiseBetween
  decide

theorem witness_RaceFaultsOrDraws : ∀ x ∈ [CrossingId.x1, .x2, .x3], d0.reads x = true ∧ busy.reads x = false := by decide

/-- Each arm. -/
theorem witness_NamedDrawDecidesTheRace : ∀ f ∈ [true, false], (vc d0 true false true (drawn f 1)).reads .x1 = true ∧
    (vc d0 true false true (drawn f 1)).draw = some (drawn f 1) ∧
    ((drawn f 1).at (.crossing .x1)).fault = f := by decide

/-- The chain of SyncShiftMovesTheChain and SyncRaceDrawsTheFirstStage. -/
theorem witness_SyncChains : ∀ x, (y0.crossing x).chain =
    Word.ofNat (Params.crossingWidth synced x) 0 :: [Word.ofNat (Params.crossingWidth synced x) 0] := by
  intro x
  cases x <;> rfl

/-- An rx edge that changes `frame_avail` and one that does not; a sys edge that changes `trig` and one that does not. -/
theorem witness_SourceEdgesKeepTheBooks :
    (∃ t, step { withLrx d0 .capture 3 0#8 with script := edge .rx [] } = .next t ∧
      (t.cur .x1 == d0.cur .x1, t.cur .x2 == d0.cur .x2) = (false, false)) ∧
    (∃ t, step { d0 with script := edge .rx [] } = .next t ∧ (t.cur .x1 == d0.cur .x1) = true) ∧
    (∃ t, step { d0 with script := edge .sys [] } = .next t ∧ (t.cur .x3 == d0.cur .x3) = false) ∧
    ∃ t, step { d0 with sysCycle := 1, script := edge .sys [] } = .next t ∧ (t.cur .x3 == Word.ofBool true) = true :=
  ⟨next_of_after (by decide), next_of_after (by decide), next_of_after (by decide), next_of_after (by decide)⟩

/-- A step of each clock: SysStepRunsTheDecodedOperations, RxStepRunsTheDecodedOperations,
ClkStepRunsTheDecodedOperations, ReplayReadIsOneCycleLate, SysEdgeKeepsTheRxDomain, RxEdgeKeepsTheSysDomain,
PayloadAndParametersNeverChange. -/
theorem witness_steps : ∀ e ∈ [(d0, Domain.sys), (y0, .sys), (d0, .rx), (s0, .clk)],
    State.event { e.1 with script := edge e.2 [] } = ⟨e.2, [], some (drawn false 0)⟩ ∧
    ∃ t, step { e.1 with script := edge e.2 [] } = .next t := by
  intro e h
  simp only [List.mem_cons, List.not_mem_nil, or_false] at h
  rcases h with rfl | rfl | rfl | rfl <;> exact ⟨rfl, next_of_some (by decide)⟩

theorem witness_NoFrameWithoutValidity : ∃ s : State, s.event.edge ≠ .sys ∧ s.lrx.state = .idle ∧
    s.begin.validity = false ∧ ∃ t, step s = .next t :=
  ⟨{ s0 with script := edge .clk [.rxCtl 2, .rxData 0x99] }, by decide, by decide, by decide, next_of_some (by decide)⟩

/-- Each clause and each alternative, the values at the edge of each range. -/
theorem witness_IllegalRunsAreRefused :
    (State.resetWith { tiny with ddiv := 1 }).cfg.legal = false ∧
    ((∃ c ∈ [uart, ⟨8, 0, 0, .input⟩], c.k = 0) ∧ (∃ c ∈ [uart, ⟨0, 1, 0, .input⟩], c.n = 0) ∧
      (∃ c ∈ [uart, ⟨8, 1, 256, .input⟩], 2 ^ c.n ≤ c.byte)) ∧
    ({ tiny with ddiv := 1 }.ddiv < 2 ∧ { tiny with aw := 0 }.aw = 0 ∧ { tiny with d := 9 }.d ≠ 2 ^ 3 ∧
      { tiny with w := 9 }.w ≠ 8 ∧ 2 ^ { tiny with ddiv := 4 }.pdw ≤ { tiny with ddiv := 4 }.ddiv - 2 ∧
      { tiny with pdw := 0 }.pdw = 0) ∧
    ({ tiny with syncStages := 1 }.syncStages = 1 ∧ { tiny with links := 2 }.links ≠ 1 ∧
      { tiny with err := true }.err = true ∧ tiny.d < { tiny with replayInit := List.replicate 9 0#8 }.replayInit.length ∧
      tiny.d ≤ { tiny with replayLen := 8 }.replayLen) ∧
    (s0.cfg.legal = true ∧ (edge .sys []).all (Event.legal tiny) = false) ∧
    (∃ e ∈ edge .clk [.rxData 256], .rxData 256 ∈ e.drive) ∧ (∃ e ∈ edge .clk [.rxCtl 4], .rxCtl 4 ∈ e.drive) ∧
    ∃ e ∈ edge .clk [.send 0 2], .send 0 2 ∈ e.drive := by decide

/-- VC2 as a whole sys edge. -/
theorem witness_OnlyARaceFaults : faults (step { vc d0 true false true (drawn false 0) with
    script := [⟨.sys, [], some (drawn true 0)⟩] }) = some (.cdcMetastable .x1) := by decide

theorem witness_SynchronizedStepsAreSafe : s0.cfg.clocking = .single ∧ 2 ≤ y0.cfg.syncStages := by decide

/-- Each alternative, a change pending on a crossing in the last two. -/
theorem witness_StepsCompleteWithoutARace :
    (s0.Shape ∧ s0.script.all (Event.legal s0.cfg) = true ∧ s0.cfg.clocking = .single) ∧
    (y0.Shape ∧ y0.script.all (Event.legal y0.cfg) = true ∧ 2 ≤ y0.cfg.syncStages) ∧
    d0.Shape ∧ d0.script.all (Event.legal d0.cfg) = true ∧ ∀ x, (d0.crossing x).changed = true → d0.reads x = false :=
  ⟨⟨s0_shape, by decide, by decide⟩, ⟨y0_shape, by decide, by decide⟩, d0_shape, by decide, fun x h => by
    cases x <;> cases h⟩

/-- Three sys edges, at the script's end and with rx edges still to come. -/
theorem witness_StoppedRxClockFreezesTheRxDomain : ∀ es ∈ [edge .sys [] ++ edge .sys [.send 0 1] ++ edge .sys [],
      edge .sys [] ++ edge .sys [] ++ edge .sys [] ++ edge .rx []],
    (∃ t, Host.Core.run core 3 { d0 with script := es } = .next t) ∧ State.rxCycles 3 { d0 with script := es } = [] := by
  intro es h
  simp only [List.mem_cons, List.not_mem_nil, or_false] at h
  rcases h with rfl | rfl <;> exact ⟨next_of_some (by decide), by decide⟩

theorem witness_ShapeIsKept : busy.Shape ∧ ∃ t, step busy = .next t := ⟨busy_shape, next_of_some (by decide)⟩

theorem witness_LinesStayFramed : busy.Shape ∧ busy.LinesFramed ∧ ∃ t, step busy = .next t :=
  ⟨busy_shape, .cons ⟨by decide, by decide, by decide⟩ .nil, next_of_some (by decide)⟩

theorem witness_ProtocolIsKept : busy.Shape ∧ busy.Protocol ∧ ∃ t, step busy = .next t :=
  ⟨busy_shape, ⟨⟨by decide, by decide, by decide⟩, by unfold Ltx.Protocol; decide, by unfold Pdm.Protocol; decide⟩,
    next_of_some (by decide)⟩

theorem witness_IdleLineIsHigh : s0.Shape ∧ s0.LinesFramed ∧ s0.cfg.uarts[0]? = some uart ∧
    s0.btx[0]? = some (Btx.reset uart) ∧ (Btx.reset uart).bc.toNat = 0 :=
  ⟨s0_shape, .cons ⟨by decide, by decide, by decide⟩ .nil, rfl, rfl, by decide⟩

/-! Runs with the edges of both domains mixed. -/

/-- Each of these numbers of steps answers a next state. -/
theorem runs {s : State} {ks : List Nat}
    (h : ks.all (fun k => (after (Host.Core.run core k s) fun _ => ()).isSome) = true) :
    ∀ k ∈ ks, ∃ t, Host.Core.run core k s = .next t :=
  fun k hk => next_of_some (List.all_eq_true.1 h k hk)

/-- What holds, by evaluation, of every state a run passes through before step `k`. -/
theorem along {s : State} {k : Nat} {P : Nat → State → Prop} [∀ i v, Decidable (P i v)]
    (h : (List.range k).all (fun i => (after (Host.Core.run core i s) fun v => decide (P i v)).getD true) = true)
    (i : Nat) (v : State) (hi : i < k) (hv : Host.Core.run core i s = .next v) : P i v := by
  have := List.all_eq_true.1 h i (List.mem_range.2 hi)
  simpa [after, hv] using this

/-- The same with step `k` itself. -/
theorem upTo {s : State} {k : Nat} {P : Nat → State → Prop} [∀ i v, Decidable (P i v)]
    (h : (List.range (k + 1)).all (fun i =>
      (after (Host.Core.run core i s) fun v => decide (P i v)).getD true) = true)
    (i : Nat) (v : State) (hi : i ≤ k) (hv : Host.Core.run core i s = .next v) : P i v :=
  along h i v (Nat.lt_succ_of_le hi) hv

/-- An edge of each domain, the draws following `pick`. -/
def sys (ds : List Drive) : Event := ⟨.sys, ds, some (drawn false 1)⟩

def rx (ds : List Drive) : Event := ⟨.rx, ds, some (drawn false 1)⟩

def clk (ds : List Drive) : Event := ⟨.clk, ds, some (drawn false 1)⟩

def shortest : UartCfg := ⟨1, 1, 1, .input⟩

def sending : State :=
  { State.resetWith { dual with uarts := [shortest] } with
    script := [sys [.send 0 1], rx [], sys [.send 0 0], sys [], rx [], sys [], sys []] }

/-- The start bit with an rx edge after it, the stop bit, the first idle cycle (no send after it is needed yet) and the
second, with the shortest frame and divider. -/
theorem witness_SerialFrameTiming : sending.Shape ∧ sending.event.edge ≠ .rx ∧
    (sending.cfg.uarts[0]? = some shortest ∧ sending.btx[0]? = some (Btx.reset shortest) ∧
      (Btx.reset shortest).bc.toNat = 0 ∧ sending.begin.sendLevel 0 = true) ∧
    (∀ k ∈ [2, 4, 6, 7], ∃ t, Host.Core.run core k sending = .next t) ∧
    [2, 4, 6, 7].map (fun k => sending.sysEdges k) = [1 + 0 * 1 + 0, 1 + 2 * 1 + 0, 1 + (1 + 2) * 1, 2 + (1 + 2) * 1] ∧
    ∀ (i : Nat) (v : State), i < 7 → Host.Core.run core i sending = .next v →
      1 + (1 + 2) * 1 ≤ sending.sysEdges i → v.event.edge ≠ .rx → v.begin.sendLevel 0 = false :=
  ⟨shape_of_script ⟨by decide, .cons ⟨rfl, rfl, rfl⟩ .nil, rfl, rfl, rfl, rfl, rfl, rfl, rfl, rfl,
      fun x => by cases x <;> exact ⟨rfl, rfl, rfl, by decide⟩, by decide, by decide, by decide⟩ _ _,
    by decide, by decide, runs (by decide), by decide, along (by decide)⟩

/-- Runs that do not stop, to the first and to the last sys edge of a stimulus. -/
theorem witness_SysClockIsFair : (∀ k ∈ [1, 7], ∃ t, Host.Core.run core k sending = .next t) ∧
    [1, 7].map (fun k => sending.sysEdges k) = [1, 5] := ⟨runs (by decide), by decide⟩

def capturing : State :=
  { d0 with script := [rx [.rxCtl 1, .rxData 0x11], sys [], rx [.rxData 0x22], sys [], rx [.rxCtl 0], sys [],
    rx [.rxCtl 1, .rxData 0x33]] }

/-- Two bytes on the rx clock with sys edges between: before the first edge, after each one, the report with a sys edge
after it, and the next frame's first edge. One byte on the one clock. -/
theorem witness_CapturedFrameIsStored :
    (capturing.Shape ∧ capturing.lrx.state = .idle ∧ [0x11#8, 0x22#8].length < capturing.cfg.d ∧
      (∀ k ∈ [0, 1, 3, 5, 6, 7], (∃ t, Host.Core.run core k capturing = .next t)) ∧
      (∀ k ∈ [0, 1, 3, 5, 6, 7], capturing.rxCycles k <+:
        [0x11#8, 0x22#8].map (fun b => (true, b)) ++ (false, 0x22#8) :: [(true, 0x33#8)]) ∧
      [0, 1, 3, 5, 6, 7].map (fun k => (capturing.rxCycles k).length) = [0, 1, 2, 3, 3, 4]) ∧
    (State.Shape { s0 with script := [clk [.rxCtl 1, .rxData 0x55], clk [.rxCtl 2]] } ∧ s0.lrx.state = .idle ∧
      ∃ t, Host.Core.run core 2 { s0 with script := [clk [.rxCtl 1, .rxData 0x55], clk [.rxCtl 2]] } = .next t) :=
  ⟨⟨shape_of_script d0_shape _ _, by decide, by decide, runs (by decide), by decide, by decide⟩,
    shape_of_script s0_shape _ _, by decide, next_of_some (by decide)⟩

/-- `trig` is 1 in sys cycle 0 alone; the rx edges of `es` follow. -/
def replaying (s : State) (es : List Event) : State :=
  { s with
    cfg := { s.cfg with trigger := .wave ⟨[true], []⟩ }
    x3 := { s.x3 with chain := s.x3.chain.map fun _ => Word.ofBool true }
    script := es }

theorem replaying_shape {s : State} (h : s.Shape) (es : List Event)
    (hl : { s.cfg with trigger := .wave ⟨[true], []⟩ }.legal = true) : (replaying s es).Shape :=
  ⟨hl, h.btx, h.send, h.cnt, h.frameLen, h.ltxLen, h.ltxRaddr, h.pdmLen, h.pdmRaddr, h.pdmDc, fun x => by
    cases x
    · exact h.crossing .x1
    · exact h.crossing .x2
    · exact ⟨(h.crossing .x3).1, (h.crossing .x3).2.1, by simpa [replaying, State.crossing] using (h.crossing .x3).2.2.1,
        fun v hv => by
          simp only [replaying, State.crossing, List.mem_map] at hv
          obtain ⟨_, _, rfl⟩ := hv
          rfl⟩,
    h.capbufWf, h.capbufWithin, h.repbuf⟩

/-- On one clock, on two without and on two with a synchronizer (settled at 1), sys edges between the rx edges of the
last two: the first cycle of the frame, its last, and the cycle after it, no new start having come. -/
theorem witness_ReplayedFrameIsThePayload :
    ∀ s ∈ [replaying s0 [clk [], clk [], clk [], clk []], replaying d0 [rx [], sys [], rx [], rx [], rx []],
      replaying y0 [rx [], sys [], rx [], rx [], rx []]],
    s.Shape ∧ s.event.edge ≠ .sys ∧ s.ltx.state = .idle ∧ s.ltx.raddr.toNat = 0 ∧
    (∃ u, step s = .next u ∧ u.ltx.state = .data) ∧
    ∃ k₁ k₂, (∀ k ∈ [k₁, k₂], ∃ t, Host.Core.run core k s = .next t) ∧
      [1, k₁, k₂].map (fun k => (s.rxCycles k).length) = [1, 3, 4] ∧ max s.cfg.replayLen 2 = 3 ∧
      ∀ (i : Nat) (v : State), i ≤ k₂ → Host.Core.run core i s = .next v →
        max s.cfg.replayLen 2 ≤ (s.rxCycles i).length → v.ltx.state = .idle := by
  intro s h
  simp only [List.mem_cons, List.not_mem_nil, or_false] at h
  rcases h with rfl | rfl | rfl
  · exact ⟨replaying_shape s0_shape _ (by decide), by decide, by decide, by decide, next_of_after (by decide), 3, 4,
      runs (by decide), by decide, by decide, upTo (by decide)⟩
  · exact ⟨replaying_shape d0_shape _ (by decide), by decide, by decide, by decide, next_of_after (by decide), 4, 5,
      runs (by decide), by decide, by decide, upTo (by decide)⟩
  · exact ⟨replaying_shape y0_shape _ (by decide), by decide, by decide, by decide, next_of_after (by decide), 4, 5,
      runs (by decide), by decide, by decide, upTo (by decide)⟩

/-- A frame of length `n` reported, X1 and X2 (and their chains) having settled. -/
def dumping (s : State) (n : Nat) (es : List Event) : State :=
  { s with
    lrx := { s.lrx with frameAvail := true, frameLen := w3 n }
    x1 := { s.x1 with chain := s.x1.chain.map fun _ => Word.ofBool true }
    x2 := { s.x2 with chain := s.x2.chain.map fun _ => w3 n }
    script := es }

theorem dumping_shape {s : State} (h : s.Shape) (n : Nat) (es : List Event) (ha : s.cfg.aw = 3) :
    (dumping s n es).Shape :=
  ⟨h.legal, h.btx, h.send, h.cnt, ha.symm, h.ltxLen, h.ltxRaddr, h.pdmLen, h.pdmRaddr, h.pdmDc, fun x => by
    cases x
    · exact ⟨(h.crossing .x1).1, (h.crossing .x1).2.1, by simpa [dumping, State.crossing] using (h.crossing .x1).2.2.1,
        fun v hv => by
          simp only [dumping, State.crossing, List.mem_map] at hv
          obtain ⟨_, _, rfl⟩ := hv
          rfl⟩
    · exact ⟨(h.crossing .x2).1, (h.crossing .x2).2.1, by simpa [dumping, State.crossing] using (h.crossing .x2).2.2.1,
        fun v hv => by
          simp only [dumping, State.crossing, List.mem_map] at hv
          obtain ⟨_, _, rfl⟩ := hv
          exact ha.symm⟩
    · exact h.crossing .x3,
    h.capbufWf, h.capbufWithin, h.repbuf⟩

/-- One word, on one clock, on two without and on two with a synchronizer, an rx edge between the sys edges of the last
two: the first cycle of the word and its last, which is the one in which PDM is idle again; and the read at the first
edge, with no write near. -/
theorem witness_DumpedWordsAndStrobe :
    ∀ s ∈ [dumping s0 1 [clk [], clk [], clk [], clk []], dumping d0 1 [sys [], rx [], sys [], sys [], sys []],
      dumping y0 1 [sys [], rx [], sys [], sys [], sys []]],
    s.Shape ∧ s.event.edge ≠ .rx ∧ s.pdm.state = .idle ∧ s.pdm.raddr.toNat = 0 ∧
    (∃ u, step s = .next u ∧ (u.pdm.state, u.pdm.len.toNat) = (.data, 1)) ∧
    (∃ k₁ k₂, (∀ k ∈ [k₁, k₂], ∃ t, Host.Core.run core k s = .next t) ∧
      [k₁, k₂].map (fun k => s.sysEdges k) = [2 + 0 * s.cfg.ddiv + 0, 2 + 0 * s.cfg.ddiv + 2] ∧ 2 < s.cfg.ddiv ∧
      2 + 0 * s.cfg.ddiv + 2 = 1 + 1 * s.cfg.ddiv) ∧
    s.sysEdges 0 = 0 * s.cfg.ddiv ∧ ((s.cfg.clocking = .single ∧ s.lrx.state ≠ .capture) ∨
      (s.cfg.clocking = .dual ∧ recentByte s.recent 0 = none)) := by
  intro s h
  simp only [List.mem_cons, List.not_mem_nil, or_false] at h
  rcases h with rfl | rfl | rfl
  · exact ⟨dumping_shape s0_shape _ _ rfl, by decide, by decide, by decide, next_of_after (by decide),
      ⟨2, 4, runs (by decide), by decide⟩, by decide⟩
  · exact ⟨dumping_shape d0_shape _ _ rfl, by decide, by decide, by decide, next_of_after (by decide),
      ⟨3, 5, runs (by decide), by decide⟩, by decide⟩
  · exact ⟨dumping_shape y0_shape _ _ rfl, by decide, by decide, by decide, next_of_after (by decide),
      ⟨3, 5, runs (by decide), by decide⟩, by decide⟩

/-- Length 0: the dump starts, with the word of address 0. -/
theorem witness_DumpedWordsAndStrobe_zero : ∃ u, step (dumping s0 0 [clk [], clk []]) = .next u ∧
    (u.pdm.state, u.pdm.len.toNat) = (.data, 0) := next_of_after (by decide)

end Sys2Proof.Tests
end

/-! The selector words of BTX, LRX and PDM (R61, R62, R64): what each flag says of the registers, which word a block
forms, which row of the table that word picks, and the three statements put together from these. -/

namespace Sys2Proof.Machine

@[simp] theorem Btx.busy_iff (b : Btx) : b.busy = true ↔ b.bc.toNat ≠ 0 := decide_eq_true_iff

@[simp] theorem Btx.divZero_iff (b : Btx) : b.divZero = true ↔ b.dc.toNat = 0 := decide_eq_true_iff

@[simp] theorem Pdm.divZero_iff (p : Pdm) : p.divZero = true ↔ p.dc.toNat = 0 := decide_eq_true_iff

@[simp] theorem Pdm.atEnd_iff (p : Pdm) : p.atEnd = true ↔ p.raddr.toNat = p.len.toNat := decide_eq_true_iff

section words
variable (s : State)

/-- R61: `B`, `Z`, `S` from the top. -/
theorem State.selector_btx {u : Nat} {b : Btx} (h : s.btx[u]? = some b) :
    s.selector (.btx u) = selWord [b.busy, b.divZero, s.sendLevel u] := by
  simp only [State.selector, State.btxSel, h]

/-- R62: `C`, `V` from the top. -/
theorem State.selector_lrx : s.selector .lrx = selWord [decide (s.lrx.state = .capture), s.validity] := rfl

/-- R64: the two bits of `Q`, then `S`, `Z`, `E`. -/
theorem State.selector_pdm : s.selector .pdm =
    selWord [s.pdm.state.code.1, s.pdm.state.code.2, s.pdmStart, s.pdm.divZero, s.pdm.atEnd] := rfl

end words

/-- The rows `0x0`, `0x1`, `10x`, `11x` of R61, the free bits included. -/
theorem decode_btx_selWord (u : Nat) (busy divZero send : Bool) :
    decode (.btx u) (selWord [busy, divZero, send]) = .ok (
      if busy then (if divZero then .btxShift u else .btxHold u)
      else if send then .btxLoad u else .btxIdle u) := by
  cases busy <;> cases divZero <;> cases send <;>
    simp [decode, Port.width, Port.rows, Row.matchesWord, selWord]

/-- The four rows of R62. -/
theorem decode_lrx_selWord (capturing valid : Bool) :
    decode .lrx (selWord [capturing, valid]) = .ok (
      if capturing then (if valid then .lrxCapture else .lrxEnd) else if valid then .lrxStart else .lrxIdle) := by
  cases capturing <;> cases valid <;> rfl

/-- The six rows of R64 at the codes that a state has: the code 11 is not among them (R68). -/
theorem decode_pdm_selWord (q : PdmState) (start divZero atEnd : Bool) :
    decode .pdm (selWord [q.code.1, q.code.2, start, divZero, atEnd]) = .ok (
      match q with
      | .idle => if start then .pdmStart else .pdmIdle
      | .data => .pdmFetch
      | .wait => if divZero then (if atEnd then .pdmDone else .pdmNext) else .pdmCount) := by
  cases q <;> cases start <;> cases divZero <;> cases atEnd <;> rfl

/-- Settles O5: the word that the instance forms, read off the rows of R61, with the flags put as register values. -/
theorem btxSelectorPicks : Obligations.BtxSelectorPicks := by
  intro s u b hb
  rw [State.selector_btx s hb, decode_btx_selWord]
  simp only [Btx.busy_iff, Btx.divZero_iff, ne_eq, ite_not]

/-- Settles O6: by the state and the validity line, which are the two bits of the word. -/
theorem lrxSelectorPicks : Obligations.LrxSelectorPicks := by
  intro s
  rw [State.selector_lrx, decode_lrx_selWord, State.validity]
  cases s.lrx.state <;> cases s.inp.rxCtl.getLsbD 0 <;> rfl

/-- Settles O8: by the state; `Z` and `E`, which decide in WAIT alone, put as register values. -/
theorem pdmSelectorPicks : Obligations.PdmSelectorPicks := by
  intro s
  rw [State.selector_pdm, decode_pdm_selWord]
  cases s.pdm.state
  case idle => rfl
  case data => rfl
  case wait => simp only [Pdm.divZero_iff, Pdm.atEnd_iff, ne_eq, ite_not]

end Sys2Proof.Machine

/-! The operations of BTX (R74 to R78): what each leaves in the registers of its instance and that it changes nothing
else, the counters' loaded values in their widths, and the four statements put together from these. -/

namespace Sys2Proof.Machine
open Sys2Proof.Claims

/-- `bc` takes `N + 2` without loss (R10, R75). -/
theorem Word.toNat_ofNat_bcw (c : UartCfg) : (Word.ofNat c.bcw (c.n + 2)).toNat = c.n + 2 := by
  rw [Word.toNat_ofNat, Nat.mod_eq_of_lt c.bcw_holds]

/-- `dc` takes `K - 1` without loss (R10, R75, R77). -/
theorem Word.toNat_ofNat_dcw (c : UartCfg) : (Word.ofNat c.dcw (c.k - 1)).toNat = c.k - 1 := by
  rw [Word.toNat_ofNat, Nat.mod_eq_of_lt c.dcw_holds]

/-- New registers for one instance are a change of that instance alone (R22). -/
theorem onlyBtxChanged_set (s : State) (u : Nat) (b : Btx) : OnlyBtxChanged s { s with btx := s.btx.set u b } u :=
  ⟨rfl, List.length_set, fun _ hv => List.getElem?_set_ne hv.symm, fun m _ => by cases m <;> rfl⟩

section operations
variable {s : State} {u : Nat} {c : UartCfg} {b : Btx}

/-- An update of an existing instance completes with the computed registers, and changes nothing else. -/
theorem State.updateBtx_completes (f : UartCfg → Btx → Btx) (hc : s.cfg.uarts[u]? = some c)
    (hb : s.btx[u]? = some b) :
    ∃ t, s.updateBtx u f = .next t ∧ t.btx[u]? = some (f c b) ∧ OnlyBtxChanged s t u := by
  obtain ⟨hu, -⟩ := List.getElem?_eq_some_iff.1 hb
  exact ⟨_, State.updateBtx_of_some f hc hb, List.getElem?_set_self hu, onlyBtxChanged_set s u _⟩

/-- R74. -/
theorem execBtxIdle_eq (hc : s.cfg.uarts[u]? = some c) (hb : s.btx[u]? = some b) : exec (.btxIdle u) s = .next s := by
  obtain ⟨hu, rfl⟩ := List.getElem?_eq_some_iff.1 hb
  have h : exec (.btxIdle u) s = .next { s with btx := s.btx.set u s.btx[u] } := State.updateBtx_of_some _ hc hb
  rw [h, List.set_getElem_self]

/-- R75. -/
theorem execBtxLoad_completes (hc : s.cfg.uarts[u]? = some c) (hb : s.btx[u]? = some b) :
    ∃ t, exec (.btxLoad u) s = .next t ∧
      t.btx[u]? = some ⟨Word.serialFrame c.n c.byte, Word.ofNat c.bcw (c.n + 2), Word.ofNat c.dcw (c.k - 1)⟩ ∧
      OnlyBtxChanged s t u :=
  State.updateBtx_completes _ hc hb

/-- R76. -/
theorem execBtxHold_completes (hc : s.cfg.uarts[u]? = some c) (hb : s.btx[u]? = some b) :
    ∃ t, exec (.btxHold u) s = .next t ∧ t.btx[u]? = some { b with dc := b.dc.dec } ∧ OnlyBtxChanged s t u :=
  State.updateBtx_completes _ hc hb

/-- R77. -/
theorem execBtxShift_completes (hc : s.cfg.uarts[u]? = some c) (hb : s.btx[u]? = some b) :
    ∃ t, exec (.btxShift u) s = .next t ∧
      t.btx[u]? = some ⟨b.sr.shiftInOne, b.bc.dec, Word.ofNat c.dcw (c.k - 1)⟩ ∧ OnlyBtxChanged s t u :=
  State.updateBtx_completes _ hc hb

/-- An update completes only for an instance that the configuration has (log 14). -/
theorem State.configured_of_updateBtx {t : State} {f : UartCfg → Btx → Btx} (h : s.updateBtx u f = .next t) :
    ∃ c, s.cfg.uarts[u]? = some c := by
  rcases State.updateBtx_cases s u f with ⟨c, -, hc, -, -⟩ | ⟨-, he⟩
  · exact ⟨c, hc⟩
  · cases he.symm.trans h

/-- Whichever operation BTX performs, it completes only for an instance that the configuration has. -/
theorem configured_of_perform_btx {t : State} (hb : s.btx[u]? = some b) (h : perform (.btx u) s = .next t) :
    ∃ c, s.cfg.uarts[u]? = some c := by
  rw [perform_btx s hb] at h
  split at h <;> split at h <;> exact State.configured_of_updateBtx h

/-- A busy instance shifts or holds, and neither reads an input (R76 to R78). -/
theorem perform_btx_busy (hc : s.cfg.uarts[u]? = some c) (hb : s.btx[u]? = some b) (hbusy : b.bc.toNat ≠ 0) :
    perform (.btx u) s = .next { s with btx := s.btx.set u (
      if b.divZero then ⟨b.sr.shiftInOne, b.bc.dec, Word.ofNat c.dcw (c.k - 1)⟩ else { b with dc := b.dc.dec }) } := by
  rw [perform_btx_regs hc hb, if_pos (b.busy_iff.2 hbusy)]

end operations

/-- Settles O10: the registers that BTX.LOAD leaves, the frame read bit by bit and the counters in their widths. -/
theorem btxLoadPacksTheFrame : Obligations.BtxLoadPacksTheFrame := by
  intro s u c b hc hb
  obtain ⟨t, ht, hregs, honly⟩ := execBtxLoad_completes hc hb
  exact ⟨t, _, ht, hregs, rfl, fun j hj => Word.bit_serialFrame (by omega), Word.toNat_ofNat_bcw c,
    Word.toNat_ofNat_dcw c, honly⟩

/-- Settles O11: the registers that BTX.SHIFT leaves, the shift read below the top bit and at it; `bc` does not wrap,
because the instance is busy. -/
theorem btxShiftMovesToTheNextBit : Obligations.BtxShiftMovesToTheNextBit := by
  intro s u c b hc hb ⟨hsr, _, _⟩ hbusy
  obtain ⟨t, ht, hregs, honly⟩ := execBtxShift_completes hc hb
  have below : ∀ i < c.n + 1, b.sr.shiftInOne.bit i = b.sr.bit (i + 1) := fun i hi => by
    rw [Word.bit_shiftInOne (by omega), if_neg (by omega)]
  have top : b.sr.shiftInOne.bit (c.n + 1) = true := by
    rw [Word.bit_shiftInOne (by omega), if_pos hsr.symm]
  exact ⟨t, _, ht, hregs, hsr, below, top, Word.toNat_dec_of_pos (Nat.pos_of_ne_zero hbusy), Word.toNat_ofNat_dcw c,
    honly⟩

/-- Settles O12: BTX.IDLE writes back the registers it read; BTX.HOLD's decrement does not wrap at a nonzero divider. -/
theorem btxIdleAndHoldKeepTheLine : Obligations.BtxIdleAndHoldKeepTheLine := by
  intro s u c b hc hb
  refine ⟨execBtxIdle_eq hc hb, fun hdc => ?_⟩
  obtain ⟨t, ht, hregs, honly⟩ := execBtxHold_completes hc hb
  exact ⟨t, _, ht, hregs, rfl, rfl, Word.toNat_dec_of_pos (Nat.pos_of_ne_zero hdc), honly⟩

/-- Settles O14: the instance exists, because its operation completed, and the registers that a busy instance takes are
computed from its own registers and its UART_CFG entry, which other inputs leave alone. -/
theorem busyBtxIgnoresSend : Obligations.BusyBtxIgnoresSend := by
  intro s t t' u b other hb hbusy ht ht'
  obtain ⟨c, hc⟩ := configured_of_perform_btx hb ht
  cases (perform_btx_busy hc hb hbusy).symm.trans ht
  cases (perform_btx_busy (s := { s with inp := other }) hc hb hbusy).symm.trans ht'
  rfl

end Sys2Proof.Machine

/-! The operations of LRX (R85 to R89, R93): what a change of its registers and what a write of CAPBUF leave unchanged,
the loaded counter values in their width, what LRX's operation leaves in CAPBUF, and the five statements put together
from these. -/

namespace Sys2Proof.Machine
open Sys2Proof.Claims

/-- A cleared register reads 0, whatever its width. -/
theorem Word.toNat_ofNat_zero (w : Nat) : (Word.ofNat w 0).toNat = 0 := by
  rw [Word.toNat_ofNat, Nat.zero_mod]

/-- A register of at least one bit takes 1 without loss. -/
theorem Word.toNat_ofNat_one {w : Nat} (h : 1 ≤ w) : (Word.ofNat w 1).toNat = 1 := by
  rw [Word.toNat_ofNat, Nat.mod_eq_of_lt (Nat.one_lt_two_pow (Nat.one_le_iff_ne_zero.1 h))]

/-- New registers for LRX are a change of LRX alone (R22). -/
theorem onlyLrxChanged_set (s : State) (l : Lrx) : OnlyLrxChanged s { s with lrx := l } :=
  ⟨rfl, fun m _ => by cases m <;> rfl⟩

/-- MEM.WRITE's write is the byte `wdatap` at `waddr`, whatever registers LRX takes at the same edge (R39, R84). -/
theorem wroteCapbuf_writeCapbuf (s : State) (l : Lrx) : WroteCapbuf s { s.writeCapbuf with lrx := l } :=
  ⟨Mem.read_write_same _ _ _, fun _ ha => Mem.read_write_other _ _ ha, fun _ => rfl⟩

/-- LRX's operation writes CAPBUF in CAPTURE alone, where `wen` is set (R84, R86 to R89). -/
theorem perform_lrx_capbuf {s t : State} (h : perform .lrx s = .next t) :
    t.capbuf = if s.wen then s.capbuf.write s.waddr s.wdatap else s.capbuf := by
  rw [perform_lrx] at h
  cases hs : s.lrx.state <;> cases hv : s.validity <;> simp only [hs, hv] at h <;> cases h <;> simp [State.wen, hs]

/-- Settles O15: both operations set LRX's registers alone, and a legal counter has a bit to hold the 1. -/
theorem lrxIdleAndStart : Obligations.LrxIdleAndStart := by
  intro s hlegal
  obtain ⟨haw, -⟩ := Params.legal_iff.1 hlegal
  constructor
  · exact ⟨_, rfl, rfl, Word.toNat_ofNat_zero _, Word.toNat_ofNat_zero _, rfl, rfl, onlyLrxChanged_set s _⟩
  · exact ⟨_, rfl, rfl, Word.toNat_ofNat_zero _, Word.toNat_ofNat_one haw, rfl, rfl, onlyLrxChanged_set s _⟩

/-- Settles O16: the write is MEM.WRITE's, and the counter counts in its own width, which is AW. -/
theorem lrxCaptureStoresAndCounts : Obligations.LrxCaptureStoresAndCounts := by
  intro s hwidth
  have counts : s.lrx.cnt.inc.toNat = (s.lrx.cnt.toNat + 1) % 2 ^ s.cfg.aw := hwidth ▸ Word.toNat_inc _
  exact ⟨_, rfl, wroteCapbuf_writeCapbuf s _, counts, rfl, rfl⟩

/-- Settles O17: the write is MEM.WRITE's at the counter of before the edge, which becomes the length. -/
theorem lrxEndReportsTheFrame : Obligations.LrxEndReportsTheFrame := fun s =>
  ⟨_, rfl, wroteCapbuf_writeCapbuf s _, rfl, rfl, Word.toNat_ofNat_zero _, rfl, rfl, rfl⟩

/-- Settles O18: LRX.PIPE sets `wdata` alone. -/
theorem lrxPipeTakesTheByte : Obligations.LrxPipeTakesTheByte := fun s =>
  ⟨_, rfl, rfl, rfl, onlyLrxChanged_set s _⟩

/-- Settles O19: the registers and the CAPBUF that LRX's operation leaves are read off its registers and the validity
line, and the two states differ in neither. -/
theorem lrxIgnoresTheSecondControlBit : Obligations.LrxIgnoresTheSecondControlBit := by
  intro s t t' ctl hctl ht ht'
  have sameValidity : State.validity { s with inp := { s.inp with rxCtl := ctl } } = s.validity := hctl
  constructor
  · rw [perform_lrx_regs ht', perform_lrx_regs ht, sameValidity]
  · rw [perform_lrx_capbuf ht', perform_lrx_capbuf ht]
    rfl

end Sys2Proof.Machine

/-! The operations of LTX (R97 to R100), and R103 and R116: what a change of LTX's registers leaves unchanged, the frame
length in its register, the registers that LTX and PDM take outside `IDLE`, and the three statements put together from
these. -/

namespace Sys2Proof.Machine
open Sys2Proof.Claims

section link_transmitter
variable {s t : State}

/-- New registers for LTX are a change of LTX alone (R22). -/
theorem onlyLtxChanged_set (s : State) (l : Ltx) : OnlyLtxChanged s { s with ltx := l } :=
  ⟨rfl, fun m _ => by cases m <;> rfl⟩

/-- `ltx_len` holds REPLAY_LEN without loss: a legal one is below D = 2^AW (R9, R117). -/
theorem State.toNat_ltxFrameLength (h : s.cfg.legal = true) : s.ltxFrameLength.toNat = s.cfg.replayLen := by
  obtain ⟨-, hd, -, -, -, -, -, -, -, -, -, hlen, -⟩ := Params.legal_iff.1 h
  rw [State.ltxFrameLength, Word.toNat_ofNat, Nat.mod_eq_of_lt (hd ▸ hlen)]

/-- Whatever LTX performs in `DATA`, its registers come from its registers alone (R99 to R101). -/
theorem ltx_of_perform_data (hs : s.ltx.state = .data) (h : perform .ltx s = .next t) :
    t.ltx = { s.ltx with raddr := s.ltx.raddr.inc, state := if s.ltx.last then .idle else .data } := by
  obtain ⟨l, hl⟩ := perform_ltx_next s
  cases hl.symm.trans h
  simpa only [hs] using perform_ltx_regs hl

/-- PDM.FETCH, performed in `DATA`, reads the parameters and CAPBUF's data register beside PDM's registers (R108). -/
theorem pdm_of_perform_data (hs : s.pdm.state = .data) (h : perform .pdm s = .next t) :
    t.pdm = { s.pdm with
      dc := Word.ofNat s.cfg.pdw (s.cfg.ddiv - 2), raddr := s.pdm.raddr.inc, word := s.capRdata, strobe := false
      state := .wait } := by
  obtain ⟨p, hp⟩ := perform_pdm_next s
  cases hp.symm.trans h
  simpa only [hs] using perform_pdm_regs hp

/-- Whatever PDM performs in `WAIT`, its registers come from its registers alone (R109 to R111). -/
theorem pdm_of_perform_wait (hs : s.pdm.state = .wait) (h : perform .pdm s = .next t) :
    t.pdm = { s.pdm with
      dc := s.pdm.dc.dec, strobe := true
      state := if s.pdm.divZero then (if s.pdm.atEnd then .idle else .data) else .wait } := by
  obtain ⟨p, hp⟩ := perform_pdm_next s
  cases hp.symm.trans h
  simpa only [hs] using perform_pdm_regs hp

end link_transmitter

/-- Settles O20: both operations set LTX's registers alone; REPLAY_LEN, and the 1 in the address, fit AW bits. -/
theorem ltxIdleAndStart : Obligations.LtxIdleAndStart := by
  intro s hlegal
  obtain ⟨haw, -⟩ := Params.legal_iff.1 hlegal
  have hlen := State.toNat_ltxFrameLength hlegal
  constructor
  · exact ⟨_, rfl, hlen, rfl, Word.toNat_ofNat_zero _, rfl, onlyLtxChanged_set s _⟩
  · exact ⟨_, rfl, hlen, rfl, Word.toNat_ofNat_one haw, rfl, onlyLtxChanged_set s _⟩

/-- Settles O21: the address counts in its own width, which is AW. -/
theorem ltxStepAndLastCount : Obligations.LtxStepAndLastCount := by
  intro s hwidth
  have counts : s.ltx.raddr.inc.toNat = (s.ltx.raddr.toNat + 1) % 2 ^ s.cfg.aw := hwidth ▸ Word.toNat_inc _
  constructor
  · exact ⟨_, rfl, counts, rfl, onlyLtxChanged_set s _⟩
  · exact ⟨_, rfl, counts, rfl, onlyLtxChanged_set s _⟩

/-- Settles O22: what the registers of a busy framer are computed from is the same in both states, which differ in the
crossings' records alone. -/
theorem busyFramersIgnoreStart : Obligations.BusyFramersIgnoreStart := by
  intro s t t' other₁ other₂ other₃
  constructor
  · intro hs ht ht'
    rw [ltx_of_perform_data hs ht, ltx_of_perform_data (s := { s with x3 := other₃ }) hs ht']
  · intro hbusy ht ht'
    cases hs : s.pdm.state with
    | idle => exact absurd hs hbusy
    | data => rw [pdm_of_perform_data hs ht, pdm_of_perform_data (s := { s with x1 := other₁, x2 := other₂ }) hs ht']
    | wait => rw [pdm_of_perform_wait hs ht, pdm_of_perform_wait (s := { s with x1 := other₁, x2 := other₂ }) hs ht']

end Sys2Proof.Machine

/-! The operations of PDM (R106 to R111): what a change of its registers leaves unchanged, the divider's loaded and
counted values in its width, and the three statements put together from these. -/

namespace Sys2Proof.Machine
open Sys2Proof.Claims

/-- New registers for PDM are a change of PDM alone (R22). -/
theorem onlyPdmChanged_set (s : State) (p : Pdm) : OnlyPdmChanged s { s with pdm := p } :=
  ⟨rfl, fun m _ => by cases m <;> rfl⟩

/-- `pdm_dc` takes `DDIV - 2` without loss in a legal configuration (R10, R108). -/
theorem Word.toNat_ofNat_pdw {c : Params} (h : c.legal = true) : (Word.ofNat c.pdw (c.ddiv - 2)).toNat = c.ddiv - 2 := by
  obtain ⟨-, -, -, -, hpdw, -⟩ := Params.legal_iff.1 h
  rw [Word.toNat_ofNat, Nat.mod_eq_of_lt (Params.pdw_holds hpdw)]

/-- A counter of `w` bits counts down, from 0 to `2 ^ w - 1` (R15, R110). -/
theorem Word.toNat_dec_wrapping {x : Word} {w : Nat} (hw : 1 ≤ w) (hx : x.width = w) :
    x.dec.toNat = if x.toNat = 0 then 2 ^ w - 1 else x.toNat - 1 := by
  subst hx
  split
  case isTrue hzero => exact Word.toNat_dec_of_zero hw hzero
  case isFalse hpos => exact Word.toNat_dec_of_pos (Nat.pos_of_ne_zero hpos)

/-- Settles O23: both operations set PDM's registers alone, to X2's sample and two zeros. -/
theorem pdmIdleAndStart : Obligations.PdmIdleAndStart := by
  intro s
  constructor
  · exact ⟨_, rfl, rfl, Word.toNat_ofNat_zero _, rfl, rfl, onlyPdmChanged_set s _⟩
  · exact ⟨_, rfl, rfl, Word.toNat_ofNat_zero _, rfl, rfl, onlyPdmChanged_set s _⟩

/-- Settles O24: a legal divider holds `DDIV - 2`, and the address counts in its own width, which is AW. -/
theorem pdmFetchLatchesTheWord : Obligations.PdmFetchLatchesTheWord := by
  intro s hlegal hwidth
  have counts : s.pdm.raddr.inc.toNat = (s.pdm.raddr.toNat + 1) % 2 ^ s.cfg.aw := hwidth ▸ Word.toNat_inc _
  exact ⟨_, rfl, Word.toNat_ofNat_pdw hlegal, counts, rfl, rfl, rfl, rfl, onlyPdmChanged_set s _⟩

/-- Settles O25: the divider counts in its own width, which is PDW; the three operations differ only in the state that
each goes to. -/
theorem pdmCountNextAndDone : Obligations.PdmCountNextAndDone := by
  intro s hpdw hwidth
  have counts := Word.toNat_dec_wrapping hpdw hwidth
  refine ⟨?count, ?next, ?done⟩
  case count => exact ⟨_, rfl, rfl, counts, rfl, onlyPdmChanged_set s _⟩
  case next => exact ⟨_, rfl, rfl, counts, rfl, onlyPdmChanged_set s _⟩
  case done => exact ⟨_, rfl, rfl, counts, rfl, onlyPdmChanged_set s _⟩

end Sys2Proof.Machine

/-! The decoder against the operation table (R60 to R67): the rows of a place are the rows of its operations, no two of
them match one word, and so a word decodes to an operation exactly where the operation's own row matches. -/

namespace Sys2Proof

/-- The row of an operation, from its encoding (R60). -/
def Instr.row (i : Instr) : Row := ⟨encode i, i.mask, i⟩

/-- Every operation has its row at its own place. -/
theorem Instr.row_mem_rows (i : Instr) : i.row ∈ i.port.rows := by
  cases i <;> simp [Instr.row, Instr.port, Instr.mask, encode, Port.rows]

/-- A place has no other rows than those of its operations. -/
theorem Port.eq_row_of_mem_rows (p : Port) : ∀ r ∈ p.rows, r = r.instr.row ∧ r.instr.port = p := by
  cases p <;> simp [Port.rows, Instr.row, Instr.port, Instr.mask, encode]

/-- A word that two rows match has, under both masks, the pattern of either. -/
theorem Row.pat_and_mask_eq {r₁ r₂ : Row} {sel : Nat} (h₁ : r₁.matchesWord sel = true)
    (h₂ : r₂.matchesWord sel = true) : r₁.pat &&& r₂.mask = r₂.pat &&& r₁.mask := by
  rw [← of_decide_eq_true h₁, ← of_decide_eq_true h₂, Nat.and_assoc, Nat.and_assoc, Nat.and_comm r₁.mask]

/-- Two rows of a place whose patterns agree on the bits that both fix are one row. -/
theorem Port.rows_disjoint (p : Port) :
    ∀ r₁ ∈ p.rows, ∀ r₂ ∈ p.rows, r₁.pat &&& r₂.mask = r₂.pat &&& r₁.mask → r₁ = r₂ := by
  cases p <;> simp [Port.rows]

/-- The decoder picks an operation where some row of the place that names it matches. -/
theorem decode_eq_ok_iff_row {p : Port} {sel : Nat} {i : Instr} :
    decode p sel = .ok i ↔ sel < 2 ^ p.width ∧ ∃ r ∈ p.rows, r.matchesWord sel = true ∧ r.instr = i := by
  unfold decode
  by_cases hw : sel < 2 ^ p.width
  · simp only [hw, if_true, true_and]
    cases hf : p.rows.find? (fun r => r.matchesWord sel) with
    | none =>
      have hnone := List.find?_eq_none.1 hf
      exact ⟨fun h => (by cases h), fun ⟨r, hr, hm, _⟩ => absurd hm (hnone r hr)⟩
    | some r =>
      have hr := List.mem_of_find?_eq_some hf
      have hm : r.matchesWord sel = true :=
        List.find?_some (p := (Row.matchesWord · sel)) hf
      constructor
      · intro h
        cases h
        exact ⟨r, hr, hm, rfl⟩
      · rintro ⟨r', hr', hm', rfl⟩
        rw [p.rows_disjoint r hr r' hr' (Row.pat_and_mask_eq hm hm')]
  · simp [hw]

/-- Settles O2: the rows that name an operation are its own row, at its own place. -/
theorem decodeIsExactlyTheTable : Obligations.DecodeIsExactlyTheTable := by
  intro p sel i
  rw [decode_eq_ok_iff_row]
  constructor
  · rintro ⟨hw, r, hr, hm, rfl⟩
    obtain ⟨hrow, hport⟩ := p.eq_row_of_mem_rows r hr
    rw [hrow] at hm
    exact ⟨hport, hw, of_decide_eq_true hm⟩
  · rintro ⟨rfl, hw, hm⟩
    exact ⟨hw, i.row, i.row_mem_rows, decide_eq_true hm, rfl⟩

/-- The word and the mask of every operation fit its format, and the word has no bit outside the mask (R60 to R67). -/
theorem Instr.encodingFits (i : Instr) : Laws.EncodingFits.Statement i := by
  cases i with
  | btxIdle u => exact Laws.EncodingFits.btxIdle u
  | btxLoad u => exact Laws.EncodingFits.btxLoad u
  | btxHold u => exact Laws.EncodingFits.btxHold u
  | btxShift u => exact Laws.EncodingFits.btxShift u
  | lrxIdle => exact Laws.EncodingFits.lrxIdle
  | lrxStart => exact Laws.EncodingFits.lrxStart
  | lrxEnd => exact Laws.EncodingFits.lrxEnd
  | lrxCapture => exact Laws.EncodingFits.lrxCapture
  | lrxPipe => exact Laws.EncodingFits.lrxPipe
  | ltxIdle => exact Laws.EncodingFits.ltxIdle
  | ltxStart => exact Laws.EncodingFits.ltxStart
  | ltxStep => exact Laws.EncodingFits.ltxStep
  | ltxLast => exact Laws.EncodingFits.ltxLast
  | pdmIdle => exact Laws.EncodingFits.pdmIdle
  | pdmStart => exact Laws.EncodingFits.pdmStart
  | pdmFetch => exact Laws.EncodingFits.pdmFetch
  | pdmCount => exact Laws.EncodingFits.pdmCount
  | pdmNext => exact Laws.EncodingFits.pdmNext
  | pdmDone => exact Laws.EncodingFits.pdmDone
  | memWrite => exact Laws.EncodingFits.memWrite
  | memNowrite => exact Laws.EncodingFits.memNowrite
  | memRead b => exact Laws.EncodingFits.memRead b
  | cdcDirect x => exact Laws.EncodingFits.cdcDirect x
  | cdcRace x => exact Laws.EncodingFits.cdcRace x
  | syncShift x => exact Laws.EncodingFits.syncShift x
  | syncRace x => exact Laws.EncodingFits.syncRace x

/-- Settles O3: the free bits leave the bits under the mask as the operation's word has them, so its row matches. -/
theorem decodeOfEncodeIsTheOperation : Obligations.DecodeOfEncodeIsTheOperation := by
  intro i free hfree hmask
  obtain ⟨hword, -, hown⟩ := i.encodingFits
  have hmatch : (encode i ||| free) &&& i.mask = encode i := by
    rw [Nat.and_or_distrib_right, hown, hmask, Nat.or_zero]
  exact (decodeIsExactlyTheTable _ _ _).2 ⟨rfl, Nat.or_lt_two_pow hword hfree, hmatch⟩

/-- Settles O1: the words written out. -/
theorem writtenWordsDecode : Obligations.WrittenWordsDecode :=
  ⟨rfl, rfl, rfl, rfl, rfl, rfl, rfl, rfl, rfl, rfl⟩

end Sys2Proof

/-! What a step leaves in the fields that `Laws/Domain.lean` does not list (the parameters, REPBUF, the inputs, the
number of BTX instances, the crossings' records), and a BTX instance's next registers under a name of their own. -/

namespace Sys2Proof.Machine

section step_fields
variable {s t : State}

/-- Whatever the clock: the parameters (R33) and REPBUF (R38, R53) stay, and so do the inputs of the cycle that the edge
ended (R70). -/
theorem step_cfg_repbuf_inp (h : step s = .next t) :
    t.cfg = s.cfg ∧ t.repbuf = s.repbuf ∧ t.inp = s.inp.applyAll s.event.drive := by
  rcases step_fields h with ⟨-, -, u, r₁, r₂, p, bs, F, rfl⟩ | ⟨-, -, u, r, a, l, F, rfl⟩ | ⟨-, -, u, p, bs, a, l, F, rfl⟩ <;>
    exact ⟨F.cfg, F.repbuf, F.inp⟩

theorem step_cfg (h : step s = .next t) : t.cfg = s.cfg := (step_cfg_repbuf_inp h).1

theorem step_repbuf (h : step s = .next t) : t.repbuf = s.repbuf := (step_cfg_repbuf_inp h).2.1

theorem step_inp (h : step s = .next t) : t.inp = s.inp.applyAll s.event.drive := (step_cfg_repbuf_inp h).2.2

/-- The sys cycle is counted at the edges of sys and of the one clock (R30). -/
theorem step_sysCycle (h : step s = .next t) :
    t.sysCycle = if s.event.edge = .rx then s.sysCycle else s.sysCycle + 1 := by
  rcases step_fields h with ⟨e, -, u, r₁, r₂, p, bs, F, rfl⟩ | ⟨e, -, u, r, a, l, F, rfl⟩ | ⟨e, -, u, p, bs, a, l, F, rfl⟩ <;>
    rw [e] <;> exact F.sysCycle

/-- The core has as many BTX instances after a step as before it. -/
theorem step_btx_length (h : step s = .next t) : t.btx.length = s.btx.length := by
  rcases step_fields h with ⟨-, -, u, r₁, r₂, p, bs, F, rfl⟩ | ⟨-, -, u, r, a, l, F, rfl⟩ | ⟨-, -, u, p, bs, a, l, F, rfl⟩
  · have hlen := nextBtx_get (s := { s.begin with x1 := r₁, x2 := r₂ }) (by simp) F.btxStep
    exact (congrArg List.length F.btx).trans hlen.1
  · exact congrArg List.length F.btx
  · have hlen := nextBtx_get (s := s.begin.wired) (by simp [State.wired]) F.btxStep
    exact (congrArg List.length F.btx).trans hlen.1

/-- The length that PDM latches in `IDLE` is X2's sample of that edge (R106, R107, R117). -/
theorem step_pdm_len (h : step s = .next t) (he : s.event.edge ≠ .rx) (hs : s.pdm.state = .idle) :
    t.pdm.len = t.x2.sample := by
  have latched : ∀ (x : State) (p : Pdm), x.pdm.state = .idle → perform .pdm x = .next { x with pdm := p } →
      p.len = x.x2.sample := fun x p hx hp => by
    have hregs := perform_pdm_regs hp
    rw [hx] at hregs
    rw [hregs, State.pdmLength]
  rcases step_fields h with ⟨-, -, u, r₁, r₂, p, bs, F, rfl⟩ | ⟨e, -⟩ | ⟨-, -, u, p, bs, a, l, F, rfl⟩
  · exact (congrArg Pdm.len F.pdm).trans
      ((latched { s.begin with x1 := r₁, x2 := r₂ } p hs F.pdmStep).trans (congrArg Crossing.sample F.x2).symm)
  · exact absurd e he
  · exact (congrArg Pdm.len F.pdm).trans
      ((latched s.begin.wired p hs F.pdmStep).trans (congrArg Crossing.sample F.x2).symm)

end step_fields

/-- The next registers of a BTX instance at an edge of its clock, for the `send` it reads (R61, R74 to R77). -/
def Btx.next (c : UartCfg) (send : Bool) (b : Btx) : Btx :=
  if b.busy then
    if b.divZero then ⟨b.sr.shiftInOne, b.bc.dec, Word.ofNat c.dcw (c.k - 1)⟩ else { b with dc := b.dc.dec }
  else if send then ⟨Word.serialFrame c.n c.byte, Word.ofNat c.bcw (c.n + 2), Word.ofNat c.dcw (c.k - 1)⟩
  else b

section next
variable {c : UartCfg} {b : Btx}

theorem Btx.next_shift (send : Bool) (hb : b.bc.toNat ≠ 0) (hd : b.dc.toNat = 0) :
    b.next c send = ⟨b.sr.shiftInOne, b.bc.dec, Word.ofNat c.dcw (c.k - 1)⟩ := by
  rw [Btx.next, if_pos (b.busy_iff.2 hb), if_pos (b.divZero_iff.2 hd)]

theorem Btx.next_hold (send : Bool) (hb : b.bc.toNat ≠ 0) (hd : b.dc.toNat ≠ 0) :
    b.next c send = { b with dc := b.dc.dec } := by
  rw [Btx.next, if_pos (b.busy_iff.2 hb), if_neg (mt b.divZero_iff.1 hd)]

theorem Btx.next_load (hb : b.bc.toNat = 0) : b.next c true =
    ⟨Word.serialFrame c.n c.byte, Word.ofNat c.bcw (c.n + 2), Word.ofNat c.dcw (c.k - 1)⟩ := by
  rw [Btx.next, if_neg (fun h => b.busy_iff.1 h hb), if_pos rfl]

theorem Btx.next_idle (hb : b.bc.toNat = 0) : b.next c false = b := by
  rw [Btx.next, if_neg (fun h => b.busy_iff.1 h hb), if_neg Bool.false_ne_true]

/-- Whatever holds of the registers before and after each of the four operations holds of the next registers. -/
theorem Btx.next_cases {P : Btx → Prop} (send : Bool)
    (shift : b.bc.toNat ≠ 0 → b.dc.toNat = 0 → P ⟨b.sr.shiftInOne, b.bc.dec, Word.ofNat c.dcw (c.k - 1)⟩)
    (hold : b.bc.toNat ≠ 0 → b.dc.toNat ≠ 0 → P { b with dc := b.dc.dec })
    (load : P ⟨Word.serialFrame c.n c.byte, Word.ofNat c.bcw (c.n + 2), Word.ofNat c.dcw (c.k - 1)⟩)
    (idle : P b) : P (b.next c send) := by
  by_cases hb : b.bc.toNat = 0
  · cases send
    · rwa [Btx.next_idle hb]
    · rwa [Btx.next_load hb]
  · by_cases hd : b.dc.toNat = 0
    · rw [Btx.next_shift send hb hd]
      exact shift hb hd
    · rw [Btx.next_hold send hb hd]
      exact hold hb hd

end next

section instances
variable {s t : State}

/-- An existing BTX instance after a step. -/
theorem step_btx_next {u : Nat} {c : UartCfg} {b : Btx} (h : step s = .next t) (hc : s.cfg.uarts[u]? = some c)
    (hb : s.btx[u]? = some b) :
    t.btx[u]? = some (if s.event.edge = .rx then b else b.next c (s.begin.sendLevel u)) :=
  step_btx h hc hb

/-- What every operation of an instance keeps, a step keeps of all instances. -/
theorem step_keeps_instances {P : UartCfg → Btx → Prop} (hP : ∀ c b send, P c b → P c (b.next c send))
    (h : step s = .next t) (hs : List.Forall₂ P s.cfg.uarts s.btx) : List.Forall₂ P s.cfg.uarts t.btx := by
  obtain ⟨hlen, hget⟩ := List.forall₂_iff_get.1 hs
  refine List.forall₂_iff_get.2 ⟨by rw [step_btx_length h, hlen], fun u hu ht => ?_⟩
  have hu' : u < s.btx.length := hlen ▸ hu
  have hnext := step_btx_next h (List.getElem?_eq_getElem hu) (List.getElem?_eq_getElem hu')
  obtain ⟨_, hval⟩ := List.getElem?_eq_some_iff.1 hnext
  rw [List.get_eq_getElem, List.get_eq_getElem, hval]
  split
  · exact hget u hu hu'
  · exact hP _ _ _ (hget u hu hu')

end instances

end Sys2Proof.Machine

/-! The shape of a state (R10, R24 to R29, R34, R47): what each operation keeps of the widths, of the chains and of the
stores, and the statement put together from these. -/

namespace Sys2Proof.Machine

section crossings
variable {s t : State} {x : CrossingId}

/-- Whatever a crossing performs, its record takes values of the driver's width: a new sample; or a new first stage, the
last stage becoming the sample; or neither (R126 to R129). -/
theorem perform_cross_cases (h : perform (.cross x) s = .next t) :
    (∃ v, v.width = (s.cur x).width ∧ t = s.setCrossing x { s.crossing x with changed := false, sample := v }) ∨
    (∃ v last, v.width = (s.cur x).width ∧ (s.crossing x).chain.getLast? = some last ∧ t = s.setCrossing x
      { s.crossing x with chain := v :: (s.crossing x).chain.dropLast, changed := false, sample := last }) ∨
    t = s.setCrossing x { s.crossing x with changed := false } := by
  have shifted : ∀ v, v.width = (s.cur x).width → s.shiftChain x v = .next t →
      ∃ v last, v.width = (s.cur x).width ∧ (s.crossing x).chain.getLast? = some last ∧ t = s.setCrossing x
        { s.crossing x with chain := v :: (s.crossing x).chain.dropLast, changed := false, sample := last } := by
    intro v hv hshift
    rcases State.shiftChain_cases s x v with ⟨last, hlast, he⟩ | ⟨-, he⟩
    · cases he.symm.trans hshift
      exact ⟨v, last, hv, hlast, rfl⟩
    · cases he.symm.trans hshift
  rw [perform_cross] at h
  split at h
  · split at h
    · exact .inr (.inl (shifted (s.drawCrossing x) rfl h))
    · exact .inr (.inl (shifted (s.cur x) rfl h))
  · split at h
    · simp only [exec, execCdcRace, raise] at h
      split at h
      · split at h
        · cases h
        · cases h
          exact .inl ⟨s.drawCrossing x, rfl, rfl⟩
      · cases h
        exact .inr (.inr rfl)
    · cases h
      exact .inl ⟨s.cur x, rfl, rfl⟩

/-- A crossing's record keeps its widths and its number of stages, whatever the crossing performs. -/
theorem perform_cross_fits {r : Crossing} (hfits : Crossing.Fits s.cfg x (s.crossing x))
    (hcur : (s.cur x).width = Params.crossingWidth s.cfg x) (h : perform (.cross x) s = .next t)
    (hr : t.crossing x = r) : Crossing.Fits s.cfg x r := by
  obtain ⟨hprev, hsample, hlen, hchain⟩ := hfits
  subst hr
  rcases perform_cross_cases h with ⟨v, hv, rfl⟩ | ⟨v, last, hv, hlast, rfl⟩ | rfl <;> rw [State.setCrossing_same]
  · exact ⟨hprev, hv.trans hcur, hlen, hchain⟩
  · have hmem : last ∈ (s.crossing x).chain := List.mem_of_getLast? hlast
    have hpos : 0 < (s.crossing x).chain.length := List.length_pos_of_mem hmem
    refine ⟨hprev, hchain last hmem, ?_, ?_⟩
    · simp only [List.length_cons, List.length_dropLast]
      omega
    · rintro w (_ | ⟨_, hw⟩)
      · exact hv.trans hcur
      · exact hchain w (List.mem_of_mem_dropLast hw)
  · exact ⟨hprev, hsample, hlen, hchain⟩

/-- The books of a source edge keep the widths (R125). -/
theorem Crossing.Fits.noted {c : Params} {r : Crossing} {before : Word} (h : Crossing.Fits c x r)
    (hb : before.width = Params.crossingWidth c x) (after : Word) : Crossing.Fits c x (r.noted before after) := by
  obtain ⟨-, hsample, hlen, hchain⟩ := id h
  unfold Crossing.noted
  split
  · exact h
  · exact ⟨hb, hsample, hlen, hchain⟩

/-- So does the wire of the one clock (R123). -/
theorem Crossing.Fits.sampled {c : Params} {r : Crossing} {v : Word} (h : Crossing.Fits c x r)
    (hv : v.width = Params.crossingWidth c x) : Crossing.Fits c x { r with sample := v } := by
  obtain ⟨hprev, -, hlen, hchain⟩ := h
  exact ⟨hprev, hv, hlen, hchain⟩

/-- The driver of a crossing is as wide as the crossing (R124). -/
theorem State.Shape.cur_width (h : s.Shape) (x : CrossingId) : (s.cur x).width = Params.crossingWidth s.cfg x := by
  cases x
  case x1 => rfl
  case x2 => exact h.frameLen
  case x3 => rfl

theorem step_crossing_fits (hs : s.Shape) (h : step s = .next t) (x : CrossingId) :
    Crossing.Fits s.cfg x (t.crossing x) := by
  have hcur := hs.cur_width
  rcases step_fields h with ⟨-, -, u, r₁, r₂, p, bs, F, rfl⟩ | ⟨-, -, u, r, a, l, F, rfl⟩ | ⟨-, -, u, p, bs, a, l, F, rfl⟩
  · cases x
    case x1 => exact F.x1 ▸ perform_cross_fits (s := s.begin) (hs.crossing .x1) (hcur .x1) F.cross₁ rfl
    case x2 =>
      exact F.x2 ▸ perform_cross_fits (s := { s.begin with x1 := r₁ }) (hs.crossing .x2) (hcur .x2) F.cross₂ rfl
    case x3 => exact F.x3 ▸ (hs.crossing .x3).noted (hcur .x3) _
  · cases x
    case x1 => exact F.x1 ▸ (hs.crossing .x1).noted (hcur .x1) _
    case x2 => exact F.x2 ▸ (hs.crossing .x2).noted (hcur .x2) _
    case x3 => exact F.x3 ▸ perform_cross_fits (s := s.begin) (hs.crossing .x3) (hcur .x3) F.cross rfl
  · cases x
    case x1 => exact F.x1 ▸ (hs.crossing .x1).sampled (hcur .x1)
    case x2 => exact F.x2 ▸ (hs.crossing .x2).sampled (hcur .x2)
    case x3 => exact F.x3 ▸ (hs.crossing .x3).sampled (hcur .x3)

end crossings

/-- The inputs keep one `send` level for each BTX instance, whatever is driven. -/
theorem Inputs.length_send_applyAll (ds : List Drive) (i : Inputs) : (i.applyAll ds).send.length = i.send.length := by
  induction ds generalizing i with
  | nil => rfl
  | cons d ds ih =>
    refine (ih (i.apply d)).trans ?_
    cases d
    case rxData => rfl
    case rxCtl => rfl
    case send => exact List.length_set

/-- Every operation of an instance keeps the widths of its registers (R74 to R77). -/
theorem Btx.Fits.next (c : UartCfg) (b : Btx) (send : Bool) (h : Btx.Fits c b) : Btx.Fits c (b.next c send) := by
  obtain ⟨hsr, hbc, hdc⟩ := id h
  apply Btx.next_cases
  case shift => exact fun _ _ => ⟨hsr, hbc, rfl⟩
  case hold => exact fun _ _ => ⟨hsr, hbc, hdc⟩
  case load => exact ⟨rfl, rfl, rfl⟩
  case idle => exact h

section shape
variable {s t : State}

theorem step_lrx_widths (hs : s.Shape) (h : step s = .next t) :
    t.lrx.cnt.width = s.cfg.aw ∧ t.lrx.frameLen.width = s.cfg.aw := by
  rw [step_lrx h]
  split
  · exact ⟨hs.cnt, hs.frameLen⟩
  · split
    · exact ⟨rfl, rfl⟩
    · exact ⟨hs.cnt, hs.frameLen⟩
    · exact ⟨rfl, hs.cnt⟩

theorem step_ltx_widths (hs : s.Shape) (h : step s = .next t) :
    t.ltx.len.width = s.cfg.aw ∧ t.ltx.raddr.width = s.cfg.aw := by
  obtain ⟨start, hltx⟩ := step_ltx h
  rw [hltx]
  split
  · exact ⟨hs.ltxLen, hs.ltxRaddr⟩
  · split
    · exact ⟨rfl, rfl⟩
    · exact ⟨hs.ltxLen, hs.ltxRaddr⟩

theorem step_pdm_widths (hs : s.Shape) (h : step s = .next t) :
    t.pdm.len.width = s.cfg.aw ∧ t.pdm.raddr.width = s.cfg.aw ∧ t.pdm.dc.width = s.cfg.pdw := by
  obtain ⟨start, len, hpdm⟩ := step_pdm h
  have hlatched := step_pdm_len h
  obtain ⟨-, hsample, -⟩ := step_crossing_fits hs h .x2
  by_cases he : s.event.edge = .rx
  · rw [hpdm, if_pos he]
    exact ⟨hs.pdmLen, hs.pdmRaddr, hs.pdmDc⟩
  · rw [if_neg he] at hpdm
    cases hst : s.pdm.state with
    | idle =>
      refine ⟨(congrArg Word.width (hlatched he hst)).trans hsample, ?_⟩
      rw [hpdm, hst]
      exact ⟨rfl, hs.pdmDc⟩
    | data =>
      rw [hpdm, hst]
      exact ⟨hs.pdmLen, hs.pdmRaddr, rfl⟩
    | wait =>
      rw [hpdm, hst]
      exact ⟨hs.pdmLen, hs.pdmRaddr, hs.pdmDc⟩

/-- LRX's counter is an address of CAPBUF (R47). -/
theorem State.Shape.cnt_lt (hs : s.Shape) : s.lrx.cnt.toNat < s.cfg.d := by
  obtain ⟨-, hd, -⟩ := Params.legal_iff.1 hs.legal
  rw [hd, ← hs.cnt]
  exact s.lrx.cnt.toNat_lt

theorem step_capbuf_wf (hs : s.Shape) (h : step s = .next t) :
    t.capbuf.wf = true ∧ t.capbuf.within s.cfg.d = true := by
  rw [step_capbuf h]
  split
  · exact ⟨Mem.write_wf _ _ hs.capbufWf, Mem.write_within _ hs.cnt_lt hs.capbufWithin⟩
  · exact ⟨hs.capbufWf, hs.capbufWithin⟩

/-- Settles O49: each block's operation keeps the widths of the registers that the block owns, a write is below the
depth and keeps the form of the store, and the length that PDM latches is as wide as X2. -/
theorem shapeIsKept : Obligations.ShapeIsKept := by
  intro s t hs h
  obtain ⟨hcnt, hframeLen⟩ := step_lrx_widths hs h
  obtain ⟨hltxLen, hltxRaddr⟩ := step_ltx_widths hs h
  obtain ⟨hpdmLen, hpdmRaddr, hpdmDc⟩ := step_pdm_widths hs h
  obtain ⟨hwf, hwithin⟩ := step_capbuf_wf hs h
  have hsend : t.inp.send.length = s.cfg.uarts.length := by
    rw [step_inp h, Inputs.length_send_applyAll, hs.send]
  have hbtx := step_keeps_instances Btx.Fits.next h hs.btx
  have hrep := (step_repbuf h).trans hs.repbuf
  have hcross := step_crossing_fits hs h
  have hlegal := hs.legal
  rw [← step_cfg h] at hlegal hbtx hsend hcnt hframeLen hltxLen hltxRaddr hpdmLen hpdmRaddr hpdmDc hcross hwithin hrep
  exact ⟨hlegal, hbtx, hsend, hcnt, hframeLen, hltxLen, hltxRaddr, hpdmLen, hpdmRaddr, hpdmDc, hcross, hwf, hwithin,
    hrep⟩

end shape

end Sys2Proof.Machine

/-! The rules of the blocks (R54, R75 to R77; R86 to R89; R98 to R101; R108, R109): what each operation keeps of them,
and the two statements put together from these. -/

namespace Sys2Proof.Machine

/-- Every operation of an instance keeps it within its frame: a load starts one, a shift brings a 1 in at the top as it
counts a bit off, and nothing else touches the register (R54, R74 to R77). -/
theorem Btx.Framed.next (c : UartCfg) (b : Btx) (send : Bool) (h : Btx.Fits c b ∧ Btx.Framed c b) :
    Btx.Fits c (b.next c send) ∧ Btx.Framed c (b.next c send) := by
  refine ⟨h.1.next c b send, ?_⟩
  obtain ⟨⟨hsr, -, -⟩, hbc, hdc, hones⟩ := h
  apply Btx.next_cases
  case shift =>
    intro hb hd
    have hdec : b.bc.dec.toNat = b.bc.toNat - 1 := Word.toNat_dec_of_pos (Nat.pos_of_ne_zero hb)
    refine ⟨?_, fun _ => (Word.toNat_ofNat_dcw c).le, fun i hi hin => ?_⟩
    · simp only [hdec]
      omega
    · simp only [hdec] at hi
      simp only [Word.bit_shiftInOne (show i < b.sr.width by omega)]
      split
      · rfl
      · exact hones (i + 1) (by omega) (by omega)
  case hold =>
    intro hb hd
    have hdec : b.dc.dec.toNat = b.dc.toNat - 1 := Word.toNat_dec_of_pos (Nat.pos_of_ne_zero hd)
    refine ⟨hbc, fun _ => ?_, hones⟩
    simp only [hdec]
    have := hdc hb
    omega
  case load =>
    have hload := Word.toNat_ofNat_bcw c
    refine ⟨hload.le, fun _ => (Word.toNat_ofNat_dcw c).le, fun i hi hin => ?_⟩
    simp only [hload] at hi
    omega
  case idle => exact ⟨hbc, hdc, hones⟩

/-- Settles O50: every operation of an instance of the right widths keeps it within its frame. -/
theorem linesStayFramed : Obligations.LinesStayFramed := by
  intro s t hs hl h
  have both : List.Forall₂ (fun c b => Btx.Fits c b ∧ Btx.Framed c b) s.cfg.uarts s.btx :=
    List.Forall₂.mp (fun _ _ => And.intro) hs.btx hl
  have hnext := step_keeps_instances Btx.Framed.next h both
  rw [← step_cfg h] at hnext
  exact hnext.imp fun _ _ hb => hb.2

section framers
variable {s t : State}

/-- The rules of LRX, operation by operation (R86 to R89). -/
theorem step_lrx_protocol (hl : Lrx.Protocol s.lrx) (h : step s = .next t) : Lrx.Protocol t.lrx := by
  rw [step_lrx h]
  split
  · exact hl
  · cases hst : s.lrx.state <;> cases hv : s.begin.validity
    case idle.false => exact ⟨fun _ => rfl, fun _ => Word.toNat_ofNat_zero _, fun _ => Word.toNat_ofNat_zero _⟩
    case idle.true => exact ⟨fun h => (by cases h), fun _ => Word.toNat_ofNat_zero _, fun h => (by cases h)⟩
    case capture.false => exact ⟨fun _ => rfl, fun h => (by cases h), fun _ => Word.toNat_ofNat_zero _⟩
    case capture.true =>
      exact ⟨hl.availInIdle, hl.lenWithAvail, fun hidle => (by cases hst.symm.trans hidle)⟩

/-- R101, in numbers: the last address, or a length below 2 (the spec's decision D14). -/
theorem Ltx.last_iff {l : Ltx} :
    l.last = true ↔ l.len.toNat ≤ 1 ∨ l.raddr.toNat = l.len.toNat - 1 := by
  rw [Ltx.last, decide_eq_true_iff]
  by_cases hlen : l.len.toNat ≤ 1
  · simp [hlen]
  · rw [Word.toNat_dec_of_pos (by omega)]
    tauto

/-- The rules of LTX: a start puts the address at 1, and the address counts up to the last one (R98 to R101). -/
theorem step_ltx_protocol (hs : s.Shape) (hl : Ltx.Protocol s.ltx) (h : step s = .next t) : Ltx.Protocol t.ltx := by
  obtain ⟨haw, -⟩ := Params.legal_iff.1 hs.legal
  obtain ⟨start, hltx⟩ := step_ltx h
  rw [hltx]
  split
  · exact hl
  · cases hst : s.ltx.state
    case idle =>
      cases start
      · intro hdata
        cases hdata
      · exact fun _ => ⟨rfl, (Word.toNat_ofNat_one haw).ge, by rw [Bool.toNat_true, Word.toNat_ofNat_one haw]; omega⟩
    case data =>
      obtain ⟨hen, hpos, hlt⟩ := hl hst
      have hbound := s.ltx.len.toNat_lt
      rw [hs.ltxLen, ← hs.ltxRaddr] at hbound
      intro hdata
      have hlast : ¬ s.ltx.last = true := fun hlast => by simp [hlast] at hdata
      rw [Ltx.last_iff] at hlast
      have hinc : s.ltx.raddr.inc.toNat = s.ltx.raddr.toNat + 1 := Word.toNat_inc_of_lt (by omega)
      exact ⟨hen, by simp only [hinc]; omega, by simp only [hinc]; omega⟩

/-- The rule of PDM: a fetch puts the divider at `DDIV - 2`, from where it counts down to 0 (R108, R109). -/
theorem step_pdm_protocol (hs : s.Shape) (hp : Pdm.Protocol s.cfg s.pdm) (h : step s = .next t) :
    Pdm.Protocol s.cfg t.pdm := by
  obtain ⟨start, len, hpdm⟩ := step_pdm h
  rw [hpdm]
  split
  · exact hp
  · cases hst : s.pdm.state
    case idle => cases start <;> exact fun hwait => (by cases hwait)
    case data => exact fun _ => (Word.toNat_ofNat_pdw hs.legal).le
    case wait =>
      intro hwait
      have hpos : s.pdm.dc.toNat ≠ 0 := fun hzero => by
        simp only [(Pdm.divZero_iff _).2 hzero, if_true] at hwait
        split at hwait <;> cases hwait
      have hdec : s.pdm.dc.dec.toNat = s.pdm.dc.toNat - 1 := Word.toNat_dec_of_pos (Nat.pos_of_ne_zero hpos)
      have hle := hp hst
      simp only [hdec]
      omega

/-- Settles O51: each block by its own operations. -/
theorem protocolIsKept : Obligations.ProtocolIsKept := by
  intro s t hs hp h
  exact ⟨step_lrx_protocol hp.lrx h, step_ltx_protocol hs hp.ltx h, step_cfg h ▸ step_pdm_protocol hs hp.pdm h⟩

end framers

end Sys2Proof.Machine

/-! The idle line, and the reset state (R145, R146): its shape, its rules, its outputs and its contents. -/

namespace Sys2Proof.Machine

/-- An instance of the core is one that UART_CFG has; what holds of all of them holds of it. -/
theorem forall₂_getElem? {P : UartCfg → Btx → Prop} {cs : List UartCfg} {bs : List Btx} (h : List.Forall₂ P cs bs)
    {u : Nat} {c : UartCfg} {b : Btx} (hc : cs[u]? = some c) (hb : bs[u]? = some b) : P c b := by
  obtain ⟨hcu, rfl⟩ := List.getElem?_eq_some_iff.1 hc
  obtain ⟨hbu, rfl⟩ := List.getElem?_eq_some_iff.1 hb
  exact h.get hcu hbu

/-- A word of the given width whose bits are all 1. -/
theorem Word.eq_ones {x : Word} {w : Nat} (hw : x.width = w) (hbits : ∀ i < w, x.bit i = true) : x = Word.ones w := by
  obtain ⟨width, bits⟩ := x
  cases hw
  refine congrArg (Word.mk width) (BitVec.eq_of_getLsbD_eq fun i hi => ?_)
  rw [BitVec.getLsbD_allOnes, decide_eq_true hi]
  exact hbits i hi

/-- Settles O53: with no frame bit left, every bit of the register is above the frame. -/
theorem idleLineIsHigh : Obligations.IdleLineIsHigh := by
  intro s u c b hs hl hc hb hidle
  obtain ⟨hsr, -, -⟩ := forall₂_getElem? hs.btx hc hb
  obtain ⟨-, -, hones⟩ := forall₂_getElem? hl hc hb
  have hbits : ∀ i < c.n + 2, b.sr.bit i = true := fun i hi => hones i (by omega) hi
  exact ⟨hbits 0 (by omega), Word.eq_ones hsr hbits⟩

theorem Crossing.reset_fits (c : Params) (x : CrossingId) : Crossing.Fits c x (Crossing.reset c x) :=
  ⟨rfl, rfl, List.length_replicate, fun _ hv => (List.eq_of_mem_replicate hv) ▸ rfl⟩

theorem Btx.reset_framed (c : UartCfg) : Btx.Framed c (Btx.reset c) := by
  have hbc : (Btx.reset c).bc.toNat = 0 := Word.toNat_ofNat_zero _
  exact ⟨by omega, fun h => absurd hbc h, fun i _ hi => Word.bit_ones hi⟩

/-- What holds of every instance at reset. -/
theorem State.forall₂_resetWith {P : UartCfg → Btx → Prop} (hP : ∀ u, P u (Btx.reset u)) (c : Params) :
    List.Forall₂ P (State.resetWith c).cfg.uarts (State.resetWith c).btx :=
  List.forall₂_map_right_iff.2 (List.forall₂_same.2 fun u _ => hP u)

theorem State.resetWith_shape {c : Params} (h : c.legal = true) : (State.resetWith c).Shape where
  legal := h
  btx := State.forall₂_resetWith (fun _ => ⟨rfl, rfl, rfl⟩) c
  send := List.length_replicate
  cnt := rfl
  frameLen := rfl
  ltxLen := rfl
  ltxRaddr := rfl
  pdmLen := rfl
  pdmRaddr := rfl
  pdmDc := rfl
  crossing x := by cases x <;> exact Crossing.reset_fits c _
  capbufWf := by
    obtain ⟨-, -, -, -, -, -, -, -, -, hwf, -⟩ := Params.legal_iff.1 h
    exact hwf
  capbufWithin := by
    obtain ⟨-, -, -, -, -, -, -, -, -, -, hwithin, -⟩ := Params.legal_iff.1 h
    exact hwithin
  repbuf := rfl

/-- Every framer is in `IDLE` with its counters at 0. -/
theorem State.resetWith_protocol (c : Params) : (State.resetWith c).Protocol where
  lrx := ⟨fun _ => rfl, fun _ => Word.toNat_ofNat_zero _, fun _ => Word.toNat_ofNat_zero _⟩
  ltx := fun h => by cases h
  pdm := fun h => by cases h

/-- Settles O52: the reset value of each register has the width of the register, and no block is at work. -/
theorem resetMeetsTheInvariants : Obligations.ResetMeetsTheInvariants := fun c h =>
  ⟨State.resetWith_shape h, State.forall₂_resetWith Btx.reset_framed c, State.resetWith_protocol c⟩

/-- `tx_ctl` where ERR is 0 (R13, R96): the enable on both lines. -/
theorem State.txCtl_of_legal {s : State} (h : s.cfg.legal = true) : s.txCtl = if s.ltx.en then 3#2 else 0#2 := by
  obtain ⟨-, -, -, -, -, herr, -⟩ := Params.legal_iff.1 h
  rw [State.txCtl, herr]
  cases s.ltx.en <;> rfl

/-- Settles O54: the lines are those of registers of ones, and the other outputs are reset values. -/
theorem resetOutputs : Obligations.ResetOutputs := by
  intro c h
  have lines : ∀ l ∈ (State.resetWith c).outputs.serialOut, l = true := by
    intro l hl
    obtain ⟨b, hb, rfl⟩ := List.mem_map.1 hl
    obtain ⟨u, -, rfl⟩ := List.mem_map.1 hb
    exact Word.bit_ones (Nat.succ_pos _)
  exact ⟨lines, rfl, Word.toNat_ofNat_zero _, State.txCtl_of_legal h, rfl, rfl, rfl, rfl, rfl, rfl, rfl⟩

/-- Settles O55: REPBUF is loaded from address 0, CAPBUF is the parameter itself. -/
theorem resetContents : Obligations.ResetContents := by
  intro c _
  refine ⟨fun a => ?_, fun a => rfl⟩
  have hread := Mem.read_load c.replayInit 0 a
  rwa [Nat.zero_add] at hread

end Sys2Proof.Machine

/-! The selector words of LTX, of the ports and of the crossings (R63, R65, R66), and that every place's word picks an
operation of that place which the configuration has (R60, the spec's decision D18). -/

namespace Sys2Proof.Machine

/-- The rows `0x0`, `0x1`, `10x`, `11x` of R63, the free bits included. -/
theorem decode_ltx_selWord (data last start : Bool) :
    decode .ltx (selWord [data, last, start]) = .ok (
      if data then (if last then .ltxLast else .ltxStep) else if start then .ltxStart else .ltxIdle) := by
  cases data <;> cases last <;> cases start <;> rfl

/-- The two rows of R65. -/
theorem decode_capWrite_selWord (wen : Bool) :
    decode .capWrite (selWord [wen]) = .ok (if wen then .memWrite else .memNowrite) := by
  cases wen <;> rfl

/-- The four rows of R66. -/
theorem decode_cross_selWord (x : CrossingId) (synced changed : Bool) :
    decode (.cross x) (selWord [synced, changed]) = .ok (
      if synced then (if changed then .syncRace x else .syncShift x)
      else if changed then .cdcRace x else .cdcDirect x) := by
  cases synced <;> cases changed <;> simp [decode, Port.width, Port.rows, Row.matchesWord, selWord]

section words
variable (s : State)

/-- R63: `T`, `E`, `S` from the top. -/
theorem State.selector_ltx : s.selector .ltx = selWord [decide (s.ltx.state = .data), s.ltx.last, s.ltxStart] := rfl

/-- R65. -/
theorem State.selector_capWrite : s.selector .capWrite = selWord [decide (s.lrx.state = .capture)] := rfl

/-- R66: `Y`, `U` from the top. -/
theorem State.selector_cross (x : CrossingId) :
    s.selector (.cross x) = selWord [decide (2 ≤ s.cfg.syncStages), (s.crossing x).changed] := rfl

/-- R65: the read ports' word has no bits. -/
theorem State.decode_bufRead (b : BufId) : decode (.bufRead b) (s.selector (.bufRead b)) = .ok (.memRead b) :=
  (decodeIsExactlyTheTable _ _ _).2 ⟨rfl, Nat.zero_lt_one, Nat.and_zero _⟩

/-- R67: LRX.PIPE's row fixes no bit. -/
theorem State.decode_pipe : decode .pipe (s.selector .pipe) = .ok .lrxPipe := by
  refine (decodeIsExactlyTheTable _ _ _).2 ⟨rfl, ?_, Nat.and_zero _⟩
  show selWord [decide (s.lrx.state = .capture), s.validity] < 4
  cases s.validity <;> cases decide (s.lrx.state = .capture) <;> decide

end words

/-- Settles O7: the word that LTX forms, read off the rows of R63, with the last-cycle condition put in numbers. -/
theorem ltxSelectorPicks : Obligations.LtxSelectorPicks := by
  intro s _
  rw [State.selector_ltx, decode_ltx_selWord]
  cases s.ltx.state
  case idle => rfl
  case data => simp only [Ltx.last_iff, decide_true, if_true]

/-- Settles O9: the words of the ports and of the crossings, read off the rows of R65 and R66. -/
theorem portAndCrossingSelectorsPick : Obligations.PortAndCrossingSelectorsPick := by
  intro s
  refine ⟨?_, s.decode_bufRead, fun x => ?_⟩
  · rw [State.selector_capWrite, decode_capWrite_selWord]
    simp only [decide_eq_true_eq]
  · rw [State.selector_cross, decode_cross_selWord]
    simp only [decide_eq_true_eq, ge_iff_le]

/-- Every place's selector word picks some operation: an instance that the core does not have forms the word 0. -/
theorem State.exists_decode_selector (s : State) (p : Port) : ∃ i, decode p (s.selector p) = .ok i := by
  cases p with
  | btx u =>
    cases hb : s.btx[u]? with
    | none =>
      have hword : s.selector (.btx u) = selWord [false, false, false] := by
        simp only [State.selector, State.btxSel, hb]
        rfl
      rw [hword]
      exact ⟨_, decode_btx_selWord u _ _ _⟩
    | some b =>
      rw [State.selector_btx s hb]
      exact ⟨_, decode_btx_selWord u _ _ _⟩
  | lrx =>
    rw [s.selector_lrx]
    exact ⟨_, decode_lrx_selWord _ _⟩
  | pipe => exact ⟨_, s.decode_pipe⟩
  | ltx =>
    rw [s.selector_ltx]
    exact ⟨_, decode_ltx_selWord _ _ _⟩
  | pdm =>
    rw [s.selector_pdm]
    exact ⟨_, decode_pdm_selWord _ _ _ _⟩
  | capWrite =>
    rw [s.selector_capWrite]
    exact ⟨_, decode_capWrite_selWord _⟩
  | bufRead b => exact ⟨_, s.decode_bufRead b⟩
  | cross x =>
    rw [s.selector_cross]
    exact ⟨_, decode_cross_selWord x _ _⟩

/-- A crossing of two clocks picks an operation that its configuration has (R66). -/
theorem State.wf_of_decode_cross {s : State} {x : CrossingId} {i : Instr} (hdual : s.cfg.clocking = .dual)
    (h : decode (.cross x) (s.selector (.cross x)) = .ok i) : i.wf s.cfg = true := by
  rw [State.selector_cross, decode_cross_selWord] at h
  injection h with h
  subst h
  by_cases hsync : 2 ≤ s.cfg.syncStages
  · cases (s.crossing x).changed <;> simp [hsync, Instr.wf, hdual]
  · have hbare : s.cfg.syncStages < 2 := Nat.lt_of_not_le hsync
    cases (s.crossing x).changed <;> simp [hsync, Instr.wf, hdual, hbare]

/-- An operation of any other place exists where the instance it names does (R12). -/
theorem Instr.wf_of_port {c : Params} {i : Instr} (hbtx : ∀ u, i.port = .btx u → u < c.uarts.length)
    (hcross : ∀ x, i.port ≠ .cross x) : i.wf c = true := by
  cases i with
  | btxIdle u => exact decide_eq_true (hbtx u rfl)
  | btxLoad u => exact decide_eq_true (hbtx u rfl)
  | btxHold u => exact decide_eq_true (hbtx u rfl)
  | btxShift u => exact decide_eq_true (hbtx u rfl)
  | cdcDirect x => exact absurd rfl (hcross x)
  | cdcRace x => exact absurd rfl (hcross x)
  | syncShift x => exact absurd rfl (hcross x)
  | syncRace x => exact absurd rfl (hcross x)
  | _ => rfl

/-- Settles O4: every word picks an operation, which the table puts at that place; a crossing's is the one for its
number of synchronizer stages. -/
theorem everySelectorPicksAnOperation : Obligations.EverySelectorPicksAnOperation := by
  intro s p
  obtain ⟨i, hi⟩ := s.exists_decode_selector p
  obtain ⟨hport, -, -⟩ := (decodeIsExactlyTheTable _ _ _).1 hi
  refine ⟨i, hi, hport, fun hbtx hdual => ?_⟩
  by_cases hp : ∃ x, p = .cross x
  · obtain ⟨x, rfl⟩ := hp
    exact State.wf_of_decode_cross (hdual x rfl) hi
  · exact Instr.wf_of_port (fun u hu => hbtx u (hport ▸ hu)) (fun x hx => hp ⟨x, hport ▸ hx⟩)

end Sys2Proof.Machine

/-! The ports of CAPBUF and REPBUF (R39 to R42): X4's record after a write, what a read leaves unchanged, per-bit
draws of a byte, and the four statements put together from these. -/

namespace Sys2Proof.Machine
open Sys2Proof.Claims

/-- X4's record of other addresses does not see an address taken out of it (R42). -/
theorem recentByte_filter_ne (r : List Host.Cell) {a b : Nat} (h : b ≠ a) :
    recentByte (r.filter fun c => c.1 != a) b = recentByte r b := by
  induction r with
  | nil => rfl
  | cons c r ih =>
    obtain ⟨k, v⟩ := c
    by_cases hk : k = a
    · simp [hk, recentByte, h, ih]
    · simp [hk, recentByte, ih]

/-- After a write under DUAL the record holds, for the written address, the byte before the write (R42; log 18). -/
theorem State.recentByte_writeCapbuf {s : State} (h : s.cfg.clocking = .dual) (a : Nat) :
    recentByte s.writeCapbuf.recent a =
      if a = s.waddr then some (s.capbuf.read s.waddr) else recentByte s.recent a := by
  simp only [State.writeCapbuf, h, recentByte]
  split
  · rfl
  · exact recentByte_filter_ne _ ‹_›

/-- A read of CAPBUF takes the port's byte and changes nothing else (R40). -/
theorem execMemRead_capbuf (s : State) : ∃ t, exec (.memRead .capbuf) s = .next t ∧ t.capRdata = s.readPort .capbuf ∧
    t = { s with capRdata := t.capRdata } ∧ SameStores s t :=
  ⟨_, rfl, rfl, rfl, fun b _ => by cases b <;> rfl⟩

/-- Each bit of a draw is one of the two (R17). -/
theorem bitwiseBetween_drawBits {w : Nat} (pick : Nat) (old new : BitVec w) :
    BitwiseBetween old new (drawBits pick old new) := by
  intro i hi
  rw [getLsbD_drawBits pick old new i hi]
  split
  · exact .inr rfl
  · exact .inl rfl

/-- Every mix is drawn by some pick: the bits in which it differs from the old value (R17). -/
theorem exists_drawBits_eq {w : Nat} {old new v : BitVec w} (h : BitwiseBetween old new v) :
    ∃ pick, drawBits pick old new = v := by
  refine ⟨(v ^^^ old).toNat, BitVec.eq_of_getLsbD_eq fun i hi => ?_⟩
  rw [getLsbD_drawBits _ old new i hi, BitVec.testBit_toNat, BitVec.getLsbD_xor]
  rcases h i hi with hold | hnew
  · simp [hold]
  · cases hv : v.getLsbD i <;> cases ho : old.getLsbD i <;> simp [← hnew, hv]

/-- An edge's draws whose CAPBUF read takes the newer byte in the bits of `pick`, and nothing else is drawn. -/
def EdgeDraw.ofReadPick (pick : Nat) : EdgeDraw := { quietDraw with capRead := ⟨false, pick⟩ }

/-- Settles O26: MEM.WRITE is the write of `waddr` alone. -/
theorem writePortOperations : Obligations.WritePortOperations := fun s =>
  ⟨rfl, s.writeCapbuf, rfl, wroteCapbuf_writeCapbuf s s.lrx, rfl, State.recentByte_writeCapbuf⟩

/-- Settles O27: with no write near, the port's byte is the addressed word. -/
theorem readPortTakesTheAddressedWord : Obligations.ReadPortTakesTheAddressedWord := by
  intro s
  refine ⟨⟨_, rfl, rfl, rfl, fun b _ => by cases b <;> rfl⟩, fun hnear => ?_⟩
  obtain ⟨t, ht, hread, honly, hstores⟩ := execMemRead_capbuf s
  refine ⟨t, ht, hread.trans ?_, honly, hstores⟩
  rcases hnear with ⟨hsingle, hother⟩ | ⟨hdual, hnone⟩
  · exact State.readPort_single hsingle fun ⟨hwen, haddr⟩ => hother (of_decide_eq_true hwen) haddr.symm
  · exact State.readPort_dual hdual hnone

/-- Settles O28: the port's byte where the write meets the read. -/
theorem readDuringWriteFollowsRdw : Obligations.ReadDuringWriteFollowsRdw := by
  intro s hsingle hcapture haddr
  obtain ⟨t, ht, hread, honly, hstores⟩ := execMemRead_capbuf s
  rw [State.readPort_single_collision hsingle (decide_eq_true hcapture) haddr] at hread
  refine ⟨t, ht, honly, hstores, ?old, ?new, ?any⟩
  case old => exact fun hrdw => by rw [hread, hrdw]; rfl
  case new => exact fun hrdw => by rw [hread, hrdw]; rfl
  case any => exact fun hrdw => by rw [hread, hrdw]; exact bitwiseBetween_drawBits _ _ _

/-- Settles O29: the port's byte is a draw between the byte before the write and the byte there, and a named draw can
pick any mix. -/
theorem readAcrossDomainsIsDrawn : Obligations.ReadAcrossDomainsIsDrawn := by
  intro s before hdual hrecent
  constructor
  · obtain ⟨t, ht, hread, honly, hstores⟩ := execMemRead_capbuf s
    rw [State.readPort_dual_recent hdual hrecent] at hread
    exact ⟨t, ht, honly, hstores, hread ▸ bitwiseBetween_drawBits _ _ _⟩
  · intro v hv
    obtain ⟨pick, hpick⟩ := exists_drawBits_eq hv
    obtain ⟨t, ht, hread, -, -⟩ := execMemRead_capbuf { s with draw := some (EdgeDraw.ofReadPick pick) }
    rw [State.readPort_dual_recent (by exact hdual) (by exact hrecent), State.resolve_of_some rfl] at hread
    exact ⟨_, t, ht, hread.trans hpick⟩

end Sys2Proof.Machine

/-! The operations of the crossings (R125 to R129): what each leaves in its crossing's record and that it changes
nothing else, and the statements put together from these. -/

namespace Sys2Proof.Machine
open Sys2Proof.Claims

/-- A new record for one crossing is a change of that crossing alone (R22). -/
theorem onlyCrossingChanged_setCrossing (s : State) (x : CrossingId) (r : Crossing) :
    OnlyCrossingChanged s (s.setCrossing x r) x :=
  ⟨by cases x <;> rfl, fun _ hy => State.setCrossing_other _ _ _ hy, fun b _ => by cases b <;> cases x <;> rfl⟩

section operations
variable {s : State} {x : CrossingId}

theorem execCdcRace_of_unread (h : s.reads x = false) :
    exec (.cdcRace x) s = .next (s.setCrossing x { s.crossing x with changed := false }) := by
  simp [exec, execCdcRace, h]

theorem execCdcRace_of_fault (h : s.reads x = true) (hf : (s.resolve (.crossing x)).fault = true) :
    exec (.cdcRace x) s = .fault (.cdcMetastable x) := by
  simp [exec, execCdcRace, h, hf, raise]

theorem execCdcRace_of_quiet (h : s.reads x = true) (hf : (s.resolve (.crossing x)).fault = false) :
    exec (.cdcRace x) s =
      .next (s.setCrossing x { s.crossing x with changed := false, sample := s.drawCrossing x }) := by
  simp [exec, execCdcRace, h, hf]

/-- Each bit of a drawn crossing is that of `prev` or that of `cur` (R127, R129). -/
theorem State.bit_drawCrossing_or (s : State) (x : CrossingId) {i : Nat} (h : i < (s.cur x).width) :
    (s.drawCrossing x).bit i = (s.crossing x).prev.bit i ∨ (s.drawCrossing x).bit i = (s.cur x).bit i := by
  rw [State.bit_drawCrossing s x h]
  split
  · exact .inr rfl
  · exact .inl rfl

/-- The step of a chain, stage by stage (R128). -/
theorem State.shiftChain_stages {first : Word} {rest : List Word} (v : Word)
    (hchain : (s.crossing x).chain = first :: rest) :
    ∃ t, s.shiftChain x v = .next t ∧ (t.crossing x).chain[0]? = some v ∧
      (∀ k, k < rest.length → (t.crossing x).chain[k + 1]? = (s.crossing x).chain[k]?) ∧
      (t.crossing x).chain.length = (s.crossing x).chain.length ∧
      some (t.crossing x).sample = (s.crossing x).chain[rest.length]? ∧ (t.crossing x).changed = false ∧
      (t.crossing x).prev = (s.crossing x).prev ∧ OnlyCrossingChanged s t x := by
  have hlast : (s.crossing x).chain.getLast? = some ((first :: rest).getLast (List.cons_ne_nil _ _)) := by
    rw [hchain, List.getLast?_eq_some_getLast]
  refine ⟨_, State.shiftChain_of_last v hlast, ?_⟩
  simp only [State.setCrossing_same]
  refine ⟨rfl, fun k hk => ?_, ?_, ?_, trivial, trivial, onlyCrossingChanged_setCrossing s x _⟩
  · simp [hchain, hk]
  · simp [hchain]
  · rw [← hlast, hchain, List.getLast?_eq_getElem?]
    rfl

end operations

/-- Settles O13: an update of an absent instance, and the step of an empty chain. -/
theorem absentUnitsAreRefused : Obligations.AbsentUnitsAreRefused := by
  constructor
  · intro s u hu
    have refused : ∀ f, s.updateBtx u f = .refused .noSuchUnit := fun f => by
      simp [State.updateBtx, hu]
    exact ⟨refused _, refused _, refused _, refused _⟩
  · intro s x hx
    have refused : ∀ v, s.shiftChain x v = .refused .noSuchUnit := fun v => by
      simp [State.shiftChain, hx]
    exact ⟨refused _, refused _⟩

/-- Settles O30: CDC.DIRECT's record. -/
theorem directSampleIsTheDriver : Obligations.DirectSampleIsTheDriver := by
  intro s x
  refine ⟨_, rfl, ?_⟩
  simp only [State.setCrossing_same, true_and]
  exact onlyCrossingChanged_setCrossing s x _

/-- Settles O31: by whether the crossing is read, and by the draw's fault bit where it is. -/
theorem raceFaultsOrDraws : Obligations.RaceFaultsOrDraws := by
  intro s x
  constructor
  · intro hread
    cases hf : (s.resolve (.crossing x)).fault with
    | true => exact .inl (execCdcRace_of_fault hread hf)
    | false =>
      refine .inr ⟨_, execCdcRace_of_quiet hread hf, ?_⟩
      simp only [State.setCrossing_same, true_and]
      exact ⟨rfl, fun i hi => s.bit_drawCrossing_or x hi, onlyCrossingChanged_setCrossing s x _⟩
  · intro hread
    exact ⟨_, execCdcRace_of_unread hread, State.setCrossing_same _ _ _, onlyCrossingChanged_setCrossing s x _⟩

/-- Settles O32: the draw of the site is the one that the edge names. -/
theorem namedDrawDecidesTheRace : Obligations.NamedDrawDecidesTheRace := by
  intro s x d hread hdraw
  rw [← State.resolve_of_some hdraw]
  refine ⟨execCdcRace_of_fault hread, fun hf => ⟨_, execCdcRace_of_quiet hread hf, ?_⟩⟩
  simp only [State.setCrossing_same, true_and]
  exact ⟨rfl, fun i hi => s.bit_drawCrossing x hi, onlyCrossingChanged_setCrossing s x _⟩

/-- Settles O33: the driver's value enters the chain. -/
theorem syncShiftMovesTheChain : Obligations.SyncShiftMovesTheChain := fun s x _ _ hchain =>
  State.shiftChain_stages (s.cur x) hchain

/-- Settles O34: a drawn value enters the chain. -/
theorem syncRaceDrawsTheFirstStage : Obligations.SyncRaceDrawsTheFirstStage := by
  intro s x first rest hchain
  obtain ⟨t, ht, hentered, hstages⟩ := State.shiftChain_stages (s.drawCrossing x) hchain
  exact ⟨t, s.drawCrossing x, ht, hentered, rfl, fun i hi => s.bit_drawCrossing_or x hi, hstages⟩

end Sys2Proof.Machine

/-! The operations that a step runs, from one state and merged by ownership (R20 to R22, R121 to R123), and the books of
the crossings around them (R125). -/

namespace Sys2Proof.Machine
open Sys2Proof.Claims

section owned
variable {s t : State}

/-- The sys blocks of an edge by their operations (R121). -/
theorem sysOwned_of_blocks {p : Pdm} {bs : List Btx} (hp : perform .pdm s = .next { s with pdm := p })
    (hb : nextBtx s s.btx.length 0 = .next bs) (pdm : t.pdm = p) (capRdata : t.capRdata = s.readPort .capbuf)
    (btx : t.btx = bs) : SysOwned s t := by
  obtain ⟨hlen, hget⟩ := nextBtx_get (Nat.zero_add _).le hb
  obtain ⟨i, hi, he⟩ := perform_eq_next hp
  refine ⟨⟨i, _, hi, he, pdm⟩, ⟨_, rfl, capRdata⟩, btx ▸ hlen, fun u hu => ?_⟩
  obtain ⟨a, ha, hu⟩ := hget u hu
  rw [Nat.zero_add] at ha hu
  obtain ⟨j, hj, hje⟩ := perform_eq_next ha
  exact ⟨j, a, hj, hje, btx ▸ hu⟩

/-- The rx blocks of an edge by their operations (R121). -/
theorem rxOwned_of_blocks {a : State} {l : Ltx} (hlrx : perform .lrx s = .next a)
    (hltx : perform .ltx s = .next { s with ltx := l })
    (capbuf : t.capbuf = if s.wen then s.capbuf.write s.waddr s.wdatap else s.capbuf)
    (recent : t.recent = if s.wen then s.writeCapbuf.recent else s.recent)
    (lrx : t.lrx = { a.lrx with wdata := s.inp.rxData }) (ltx : t.ltx = l)
    (repRdata : t.repRdata = s.repbuf.read s.ltx.raddr.toNat) : RxOwned s t := by
  obtain ⟨iw, hiw, hew⟩ := perform_eq_next (perform_capWrite_eq s)
  obtain ⟨il, hil, hel⟩ := perform_eq_next hlrx
  obtain ⟨ix, hix, hex⟩ := perform_eq_next hltx
  refine ⟨⟨iw, _, hiw, hew, ?_, ?_⟩, ⟨il, a, hil, hel, ?_⟩, ⟨_, rfl, ?_⟩, ⟨ix, _, hix, hex, ltx⟩, ⟨_, rfl, repRdata⟩⟩
  · rw [capbuf]
    split <;> rfl
  · rw [recent]
    split <;> rfl
  · rw [lrx]
  · rw [lrx]

/-- Settles O36: the fields that a sys edge leaves. -/
theorem sysStepRunsTheDecodedOperations : Obligations.SysStepRunsTheDecodedOperations := by
  intro s t he h
  have hcycle := step_sysCycle h
  rw [if_neg (by rw [he]; decide)] at hcycle
  rcases step_fields h with ⟨-, -, u, r₁, r₂, p, bs, F, rfl⟩ | ⟨e, -⟩ | ⟨e, -⟩
  · obtain ⟨i₁, hi₁, he₁⟩ := perform_eq_next F.cross₁
    obtain ⟨i₂, hi₂, he₂⟩ := perform_eq_next F.cross₂
    exact ⟨i₁, i₂, _, _, hi₁, he₁, hi₂, he₂, sysOwned_of_blocks F.pdmStep F.btxStep F.pdm F.capRdata F.btx, F.x1, F.x2,
      hcycle, F.recent, step_inp h, step_script h, step_edges h⟩
  · cases he.symm.trans e
  · cases he.symm.trans e

/-- Settles O37: the fields that an rx edge leaves. -/
theorem rxStepRunsTheDecodedOperations : Obligations.RxStepRunsTheDecodedOperations := by
  intro s t he h
  rcases step_fields h with ⟨e, -⟩ | ⟨-, -, u, r, a, l, F, rfl⟩ | ⟨e, -⟩
  · cases he.symm.trans e
  · obtain ⟨i, hi, hei⟩ := perform_eq_next F.cross
    exact ⟨i, _, hi, hei, rxOwned_of_blocks F.lrxStep F.ltxStep F.capbuf F.recent F.lrx F.ltx F.repRdata, F.x3,
      step_inp h, step_script h, step_edges h⟩
  · cases he.symm.trans e

/-- Settles O38: the fields that an edge of the one clock leaves. -/
theorem clkStepRunsTheDecodedOperations : Obligations.ClkStepRunsTheDecodedOperations := by
  intro s t he h
  have hcycle := step_sysCycle h
  rw [if_neg (by rw [he]; decide)] at hcycle
  rcases step_fields h with ⟨e, -⟩ | ⟨e, -⟩ | ⟨-, -, u, p, bs, a, l, F, rfl⟩
  · cases he.symm.trans e
  · cases he.symm.trans e
  · exact ⟨s.begin.wired, rfl, fun x => by cases x <;> rfl,
      sysOwned_of_blocks F.pdmStep F.btxStep F.pdm F.capRdata F.btx,
      rxOwned_of_blocks F.lrxStep F.ltxStep F.capbuf F.recent F.lrx F.ltx F.repRdata,
      hcycle, step_inp h, step_script h, step_edges h⟩

end owned

/-- The books of a crossing after a source edge, by whether the driver changed (R125). -/
theorem Crossing.noted_books (r : Crossing) (before after : Word) :
    (after ≠ before → (r.noted before after).prev = before ∧ (r.noted before after).changed = true) ∧
    (after = before → r.noted before after = r) := by
  constructor
  · intro hne
    rw [Crossing.noted, if_neg hne]
    exact ⟨rfl, rfl⟩
  · exact fun heq => if_pos heq

/-- The books leave the chain alone. -/
theorem Crossing.noted_chain (r : Crossing) (before after : Word) : (r.noted before after).chain = r.chain := by
  unfold Crossing.noted
  split <;> rfl

/-- Settles O35: the records that each edge leaves, noted at the source and cleared at the destination. -/
theorem sourceEdgesKeepTheBooks : Obligations.SourceEdgesKeepTheBooks := by
  intro s t hdual h
  rcases step_fields h with ⟨e, -, u, r₁, r₂, p, bs, F, rfl⟩ | ⟨e, -, u, r, a, l, F, rfl⟩ | ⟨-, hsingle, -⟩
  · have books := F.x3 ▸ Crossing.noted_books s.x3 (s.cur .x3) (u.cur .x3)
    obtain ⟨changes, holds⟩ := books
    refine ⟨fun hrx => (by cases e.symm.trans hrx), fun hrx => (by cases e.symm.trans hrx), fun _ => ?_⟩
    exact ⟨changes, holds, (congrArg Crossing.changed F.x1).trans F.cleared₁.1,
      (congrArg Crossing.changed F.x2).trans F.cleared₂.1⟩
  · refine ⟨fun _ x hx => ?_, fun _ => (congrArg Crossing.changed F.x3).trans F.cleared.1,
      fun hsys => (by cases e.symm.trans hsys)⟩
    cases x
    case x1 => exact F.x1 ▸ Crossing.noted_books s.x1 (s.cur .x1) (u.cur .x1)
    case x2 => exact F.x2 ▸ Crossing.noted_books s.x2 (s.cur .x2) (u.cur .x2)
    case x3 => exact absurd rfl hx
  · cases hdual.symm.trans hsingle

end Sys2Proof.Machine

/-! The stops of a step (R13, R132, R134): which configurations and stimuli are refused, and that only the race of a
crossing faults. -/

namespace Sys2Proof.Machine

/-- R13. -/
theorem step_of_illegal_cfg {s : State} (h : s.cfg.legal = false) : step s = .refused .paramIllegal := by
  simp [step, runEdge, h]

/-- R134. -/
theorem step_of_illegal_script {s : State} (h : s.cfg.legal = true) (hs : s.script.all (Event.legal s.cfg) = false) :
    step s = .refused .scriptIllegal := by
  simp [step, runEdge, h, hs]

/-- R12: N, K and BYTE of a legal instance. -/
theorem UartCfg.of_legal {n : Nat} {c : UartCfg} (h : c.legal n = true) : 1 ≤ c.n ∧ 1 ≤ c.k ∧ c.byte < 2 ^ c.n := by
  simp only [UartCfg.legal, Bool.and_eq_true, decide_eq_true_eq] at h
  obtain ⟨⟨⟨hn, hk⟩, hbyte⟩, -⟩ := h
  exact ⟨hn, hk, hbyte⟩

/-- R10: PDW is not 0 where it holds `DDIV - 2`. -/
theorem Params.one_le_of_minPdw_le {c : Params} (h : c.minPdw ≤ c.pdw) : 1 ≤ c.pdw :=
  Nat.le_trans (Nat.le_max_left _ _) h

/-- An illegal drive anywhere in the stimulus makes it illegal (R134). -/
theorem script_illegal_of_drive {c : Params} {es : List Event} {e : Event} {d : Drive} (he : e ∈ es) (hd : d ∈ e.drive)
    (h : d.legal c = false) : es.all (Event.legal c) = false := by
  rw [List.all_eq_false]
  refine ⟨e, he, fun hlegal => ?_⟩
  obtain ⟨-, hdrives⟩ := Bool.and_eq_true_iff.1 hlegal
  exact absurd (List.all_eq_true.1 hdrives d hd) (by simp [h])

/-- Settles O39: each value is one that a clause of the legal configuration excludes, or that its input does not take.
-/
theorem illegalRunsAreRefused : Obligations.IllegalRunsAreRefused := by
  intro s
  refine ⟨step_of_illegal_cfg, fun hval => ?_, step_of_illegal_script, fun hlegal e he v hdrive => ?_⟩
  · refine step_of_illegal_cfg (Bool.eq_false_iff.2 fun hlegal => ?_)
    obtain ⟨haw, hd, hw, hddiv, hpdw, herr, hsync, hlinks, hinit, -, -, hlen, huarts⟩ := Params.legal_iff.1 hlegal
    have hpdw₁ := Params.one_le_of_minPdw_le hpdw
    have hpdw₂ := Params.pdw_holds hpdw
    rcases hval with ⟨c, hc, hval⟩ | hval | hval | hval | hval | hval | hval | hval | hval | hval | hval | hval
    · obtain ⟨hn, hk, hbyte⟩ := UartCfg.of_legal (huarts c hc)
      omega
    · omega
    · omega
    · exact hval hd
    · exact hval hw
    · omega
    · omega
    · exact hsync hval
    · exact hval hlinks
    · exact absurd (herr.symm.trans hval) Bool.false_ne_true
    · omega
    · omega
  · refine step_of_illegal_script hlegal ?_
    rcases hdrive with ⟨hd, hv⟩ | ⟨hd, hv⟩ | ⟨u, hd, hv⟩
    · exact script_illegal_of_drive he hd (decide_eq_false (by omega))
    · exact script_illegal_of_drive he hd (decide_eq_false (by omega))
    · exact script_illegal_of_drive he hd (Bool.and_eq_false_iff.2 (.inl (decide_eq_false (by omega))))

section faults
variable {s : State} {f : Fault}

/-- A step faults where its edge does (R134). -/
theorem step_eq_fault (h : step s = .fault f) :
    s.script.all (Event.legal s.cfg) = true ∧ edgeOf s.event.edge s.begin = .fault f := by
  unfold step runEdge at h
  split at h
  · split at h
    · obtain h | ⟨_, _, h⟩ := Result.andThen_eq_fault.1 h
      · exact ⟨‹_›, h⟩
      · cases h
    · cases h
  · cases h

/-- The rx blocks never fault. -/
theorem rxBlocks_ne_fault (s : State) (f : Fault) : rxBlocks s ≠ .fault f := fun h => by
  obtain ⟨_, _, _, _, hnext⟩ := rxBlocks_next s
  cases hnext.symm.trans h

/-- A sys edge faults only at X1 or X2, each as it stood before the edge (R127). -/
theorem sysEdge_eq_fault (h : sysEdge s = .fault f) :
    ∃ x, f = .cdcMetastable x ∧ s.cfg.syncStages < 2 ∧ (s.crossing x).changed = true ∧ s.reads x = true := by
  rcases Result.andThen_eq_fault.1 h with h1 | ⟨s₁, h1, h⟩
  · exact ⟨.x1, perform_cross_eq_fault h1⟩
  · rcases Result.andThen_eq_fault.1 h with h2 | ⟨s₂, -, h⟩
    · obtain ⟨r, rfl, -, -⟩ := perform_cross_frame h1
      exact ⟨.x2, perform_cross_eq_fault (s := s.setCrossing .x1 r) h2⟩
    · rcases Result.andThen_eq_fault.1 h with h3 | ⟨_, -, h⟩
      · exact absurd h3 (sysBlocks_ne_fault s₂ f)
      · cases h

/-- An rx edge faults only at X3. -/
theorem rxEdge_eq_fault (h : rxEdge s = .fault f) :
    ∃ x, f = .cdcMetastable x ∧ s.cfg.syncStages < 2 ∧ (s.crossing x).changed = true ∧ s.reads x = true := by
  rcases Result.andThen_eq_fault.1 h with h3 | ⟨s₁, -, h⟩
  · exact ⟨.x3, perform_cross_eq_fault h3⟩
  · rcases Result.andThen_eq_fault.1 h with h | ⟨_, -, h⟩
    · exact absurd h (rxBlocks_ne_fault s₁ f)
    · cases h

/-- An edge of the one clock never faults (R123). -/
theorem clkEdge_ne_fault (s : State) (f : Fault) : clkEdge s ≠ .fault f := fun h => by
  rcases Result.andThen_eq_fault.1 h with h | ⟨_, -, h⟩
  · exact sysBlocks_ne_fault _ f h
  · rcases Result.andThen_eq_fault.1 h with h | ⟨_, -, h⟩
    · exact rxBlocks_ne_fault _ f h
    · cases h

end faults

/-- Settles O40: by the clock of the edge; the one clock's edge does not fault. -/
theorem onlyARaceFaults : Obligations.OnlyARaceFaults := by
  intro s f h
  obtain ⟨hscript, hedge⟩ := step_eq_fault h
  have hclock := State.event_legal hscript
  cases he : s.event.edge <;> rw [he] at hedge hclock
  case sys =>
    obtain ⟨x, hf, hsync, hchanged, hreads⟩ := sysEdge_eq_fault hedge
    exact ⟨x, hf, eq_of_beq hclock, hsync, State.begin_crossing s x ▸ hchanged, State.begin_reads s x ▸ hreads⟩
  case rx =>
    obtain ⟨x, hf, hsync, hchanged, hreads⟩ := rxEdge_eq_fault hedge
    exact ⟨x, hf, eq_of_beq hclock, hsync, State.begin_crossing s x ▸ hchanged, State.begin_reads s x ▸ hreads⟩
  case clk => exact absurd hedge (clkEdge_ne_fault _ f)

/-- Settles O41: a fault needs two clocks and no synchronizer. -/
theorem synchronizedStepsAreSafe : Obligations.SynchronizedStepsAreSafe := by
  intro s hcfg f h
  obtain ⟨x, -, hdual, hsync, -, -⟩ := onlyARaceFaults s f h
  rcases hcfg with hsingle | hsynced
  · cases hdual.symm.trans hsingle
  · omega

section completes
variable {s : State}

/-- The sys blocks answer where each instance has its UART_CFG entry. -/
theorem sysBlocks_next (h : s.cfg.uarts.length = s.btx.length) : ∃ t, sysBlocks s = .next t := by
  obtain ⟨p, hp⟩ := perform_pdm_next s
  obtain ⟨bs, hbs⟩ := nextBtx_next h (Nat.zero_add _).le
  exact ⟨_, by simp only [sysBlocks, hp, perform_bufRead_capbuf, hbs, Result.andThen_next]; rfl⟩

/-- What stands between an edge and its next state: a chain of SYNC_STAGES stages at each crossing, and no race that is
read (R127 to R129). -/
def State.Quiet (s : State) : Prop :=
  (∀ x, (s.crossing x).chain.length = s.cfg.syncStages) ∧
    ∀ x, 2 ≤ s.cfg.syncStages ∨ ((s.crossing x).changed = true → s.reads x = false)

theorem sysEdge_next (h : s.cfg.uarts.length = s.btx.length) (hq : s.Quiet) : ∃ t, sysEdge s = .next t := by
  obtain ⟨hchain, hquiet⟩ := hq
  obtain ⟨s₁, h1⟩ := perform_cross_next (hchain .x1) (hquiet .x1)
  obtain ⟨r₁, rfl, -, -⟩ := perform_cross_frame h1
  obtain ⟨s₂, h2⟩ := perform_cross_next (s := s.setCrossing .x1 r₁) (x := .x2) (hchain .x2) (hquiet .x2)
  obtain ⟨r₂, rfl, -, -⟩ := perform_cross_frame h2
  obtain ⟨u, hu⟩ := sysBlocks_next (s := (s.setCrossing .x1 r₁).setCrossing .x2 r₂) h
  exact ⟨_, by simp only [sysEdge, h1, h2, hu, Result.andThen_next]; rfl⟩

theorem rxEdge_next (hq : s.Quiet) : ∃ t, rxEdge s = .next t := by
  obtain ⟨hchain, hquiet⟩ := hq
  obtain ⟨s₁, h1⟩ := perform_cross_next (hchain .x3) (hquiet .x3)
  obtain ⟨_, _, _, _, hu⟩ := rxBlocks_next s₁
  exact ⟨_, by simp only [rxEdge, h1, hu, Result.andThen_next]; rfl⟩

theorem clkEdge_next (h : s.cfg.uarts.length = s.btx.length) : ∃ t, clkEdge s = .next t := by
  obtain ⟨a, ha⟩ := sysBlocks_next (s := ((s.wire .x1).wire .x2).wire .x3) h
  obtain ⟨_, _, _, _, hb⟩ := rxBlocks_next (((s.wire .x1).wire .x2).wire .x3)
  exact ⟨_, by simp only [clkEdge, ha, hb, Result.andThen_next]; rfl⟩

/-- Settles O42: by the clock of the edge; under DUAL the crossings that the edge samples are quiet. -/
theorem stepsCompleteWithoutARace : Obligations.StepsCompleteWithoutARace := by
  intro s hs hscript hquiet
  have hlen : s.begin.cfg.uarts.length = s.begin.btx.length := hs.btx.length_eq
  have hclock := State.event_legal hscript
  have quiet : s.cfg.clocking = .dual → s.begin.Quiet := by
    intro hdual
    refine ⟨fun x => ?_, fun x => ?_⟩
    · obtain ⟨-, -, hchain, -⟩ := hs.crossing x
      exact State.begin_crossing s x ▸ hchain
    · rw [State.begin_crossing, State.begin_reads]
      rcases hquiet with hsingle | hsynced | hunread
      · cases hdual.symm.trans hsingle
      · exact .inl hsynced
      · exact .inr (hunread x)
  have completes : ∃ u, edgeOf s.event.edge s.begin = .next u := by
    cases he : s.event.edge <;> rw [he] at hclock
    case sys => exact sysEdge_next hlen (quiet (eq_of_beq hclock))
    case rx => exact rxEdge_next (quiet (eq_of_beq hclock))
    case clk => exact clkEdge_next hlen
  obtain ⟨u, hu⟩ := completes
  exact ⟨_, step_eq_next.2 ⟨hs.legal, hscript, u, hu, rfl⟩⟩

end completes

end Sys2Proof.Machine

/-! What an edge of one domain leaves in the other, and what the edges of rx leave in the stores (R40, R91, R122,
R135). -/

namespace Sys2Proof.Machine

/-- Settles O43: REPBUF's port reads at the address of the cycle that the edge ends. -/
theorem replayReadIsOneCycleLate : Obligations.ReplayReadIsOneCycleLate := by
  intro s t he h
  exact (step_repRdata h).trans (if_neg he)

/-- Settles O44: LRX.IDLE's registers; CAPBUF is written in CAPTURE alone. -/
theorem noFrameWithoutValidity : Obligations.NoFrameWithoutValidity := by
  intro s t he hidle hinvalid h
  have hlrx := step_lrx h
  rw [if_neg he, hidle, hinvalid] at hlrx
  have hcapbuf : t.capbuf = s.capbuf :=
    (step_capbuf h).trans (if_neg fun ⟨_, hcapture⟩ => by cases hidle.symm.trans hcapture)
  show t.lrx.state = .idle ∧ t.lrx.cnt.toNat = 0 ∧ t.lrx.frameAvail = false ∧ t.lrx.frameLen.toNat = 0 ∧ _
  rw [hlrx]
  exact ⟨rfl, Word.toNat_ofNat_zero _, rfl, Word.toNat_ofNat_zero _, hcapbuf⟩

/-- Settles O45. -/
theorem payloadAndParametersNeverChange : Obligations.PayloadAndParametersNeverChange := fun _ _ h =>
  ⟨step_repbuf h, step_cfg h⟩

/-- Settles O46: a sys edge touches X3 by its books alone. -/
theorem sysEdgeKeepsTheRxDomain : Obligations.SysEdgeKeepsTheRxDomain := by
  intro s t he h
  rcases step_fields h with ⟨-, -, u, r₁, r₂, p, bs, F, rfl⟩ | ⟨e, -⟩ | ⟨e, -⟩
  · have chain := (congrArg Crossing.chain F.x3).trans (Crossing.noted_chain _ _ _)
    exact ⟨F.lrx, F.ltx, F.capbuf, F.repbuf, F.repRdata, chain⟩
  · cases he.symm.trans e
  · cases he.symm.trans e

/-- Settles O47: an rx edge touches X1 and X2 by their books alone. -/
theorem rxEdgeKeepsTheSysDomain : Obligations.RxEdgeKeepsTheSysDomain := by
  intro s t he h
  rcases step_fields h with ⟨e, -⟩ | ⟨-, -, u, r, a, l, F, rfl⟩ | ⟨e, -⟩
  · cases he.symm.trans e
  · exact ⟨F.btx, F.pdm, F.capRdata, F.sysCycle, (congrArg Crossing.chain F.x1).trans (Crossing.noted_chain _ _ _),
      (congrArg Crossing.chain F.x2).trans (Crossing.noted_chain _ _ _)⟩
  · cases he.symm.trans e

/-- A step that ends no rx cycle is a sys edge. -/
theorem State.rxCycles_succ_eq_nil {n : Nat} {s u : State} (h : step s = .next u) :
    s.rxCycles (n + 1) = [] ↔ s.event.edge = .sys ∧ u.rxCycles n = [] := by
  rw [State.rxCycles_succ h, List.append_eq_nil_iff]
  refine and_congr_left fun _ => ⟨fun hnil => ?_, fun he => if_pos he⟩
  by_contra he
  rw [if_neg he] at hnil
  cases hnil

/-- Settles O48: by induction on the number of steps, each of them a sys edge. -/
theorem stoppedRxClockFreezesTheRxDomain : Obligations.StoppedRxClockFreezesTheRxDomain := by
  intro n
  induction n with
  | zero =>
    intro s t hrun _
    cases hrun
    exact ⟨rfl, rfl, rfl, rfl, rfl, rfl⟩
  | succ n ih =>
    intro s t hrun hcycles
    obtain ⟨u, hu, hrest⟩ := run_succ_eq_next.1 hrun
    obtain ⟨he, hcycles⟩ := (State.rxCycles_succ_eq_nil hu).1 hcycles
    obtain ⟨lrx, ltx, capbuf, repbuf, repRdata, chain⟩ := sysEdgeKeepsTheRxDomain s u he hu
    rw [← lrx, ← ltx, ← capbuf, ← repbuf, ← repRdata, ← chain]
    exact ih u t hrest hcycles

end Sys2Proof.Machine

/-! Runs of many steps: what every step keeps, a run keeps; and the fairness of the sys clock (R122). -/

namespace Sys2Proof.Machine

/-- What holds of a run's start and what each further step carries on holds all along the run. -/
theorem run_induction {s : State} {P : Nat → State → Prop} (start : P 0 s)
    (next : ∀ k u v, Host.Core.run core k s = .next u → P k u → step u = .next v → P (k + 1) v) (k : Nat) (t : State)
    (h : Host.Core.run core k s = .next t) : P k t := by
  induction k generalizing t with
  | zero =>
    cases h
    exact start
  | succ k ih =>
    obtain ⟨u, hu, ht⟩ := run_succ_eq_next_last.1 h
    exact next k u t hu (ih u hu) ht

section kept
variable {k : Nat} {s t : State}

theorem run_cfg (h : Host.Core.run core k s = .next t) : t.cfg = s.cfg :=
  run_induction (P := fun _ t => t.cfg = s.cfg) rfl (fun _ _ _ _ ih ht => (step_cfg ht).trans ih) k t h

theorem run_repbuf (h : Host.Core.run core k s = .next t) : t.repbuf = s.repbuf :=
  run_induction (P := fun _ t => t.repbuf = s.repbuf) rfl (fun _ _ _ _ ih ht => (step_repbuf ht).trans ih) k t h

theorem run_shape (hs : s.Shape) (h : Host.Core.run core k s = .next t) : t.Shape :=
  run_induction (P := fun _ t => t.Shape) hs (fun _ u v _ ih ht => shapeIsKept u v ih ht) k t h

/-- A run counts its edges. -/
theorem run_edges (h : Host.Core.run core k s = .next t) : t.edges = s.edges + k :=
  run_induction (P := fun k t => t.edges = s.edges + k) rfl
    (fun _ _ _ _ ih ht => by rw [step_edges ht, ih, Nat.add_assoc]) k t h

/-- A run takes its edges off the stimulus. -/
theorem run_script (h : Host.Core.run core k s = .next t) : t.script = s.script.drop k :=
  run_induction (P := fun k t => t.script = s.script.drop k) rfl
    (fun _ _ _ _ ih ht => by rw [step_script ht, ih, List.tail_drop]) k t h

end kept

/-- Past its stimulus a state's next edge is free (log 4). -/
theorem State.event_of_script_nil {s : State} (h : s.script = []) : s.event = Event.free s.cfg s.edges := by
  rw [State.event, h]
  rfl

/-- From every state, a run comes to an edge of sys or of the one clock: past the stimulus, the free edges do. -/
theorem exists_sysEdges_pos (s : State) : ∃ k, ∀ t, Host.Core.run core k s = .next t → 1 ≤ s.sysEdges k := by
  obtain ⟨k, hk⟩ := Domain.exists_free_ne_rx s.cfg (s.edges + s.script.length)
  refine ⟨s.script.length + k + 1, fun t ht => ?_⟩
  obtain ⟨u, hu, hstep⟩ := run_succ_eq_next_last.1 ht
  have hscript : u.script = [] := (run_script hu).trans (List.drop_eq_nil_of_le (Nat.le_add_right _ _))
  have hedge : u.event.edge ≠ .rx := by
    rw [State.event_of_script_nil hscript, run_cfg hu, run_edges hu, ← Nat.add_assoc]
    exact hk
  rw [State.sysEdges_last hu hstep, if_neg hedge]
  exact Nat.le_add_left _ _

/-- Settles O56: by induction on the number of sys cycles, each from the state that the one before it leaves; a run that
has stopped needs no further one. -/
theorem sysClockIsFair : Obligations.SysClockIsFair := by
  intro s m
  induction m generalizing s with
  | zero => exact ⟨0, fun _ _ => Nat.zero_le _⟩
  | succ m ih =>
    obtain ⟨k, hk⟩ := exists_sysEdges_pos s
    by_cases hrun : ∃ u : State, Host.Core.run core k s = .next u
    · obtain ⟨u, hu⟩ := hrun
      obtain ⟨n, hn⟩ := ih u
      refine ⟨k + n, fun t ht => ?_⟩
      obtain ⟨u', hu', hrest⟩ := run_add_eq_next.1 ht
      cases hu.symm.trans hu'
      rw [State.sysEdges_add hu]
      have := hk u hu
      have := hn t hrest
      omega
    · exact ⟨k, fun t ht => absurd ⟨t, ht⟩ hrun⟩

end Sys2Proof.Machine

/-! A frame on a serial line (R54, R55, R75 to R79): the registers of an instance `j * K + r` sys cycles after a load,
how an edge carries them on, and the statement about runs put together from these. -/

namespace Sys2Proof.Machine
open Sys2Proof.Claims

/-- The registers of an instance that has shown frame bit `j` for `r` cycles: what is left of the frame stands at the
low end of `sr` with ones above it. With `j = N + 2` the frame is over. -/
structure Btx.Sending (c : UartCfg) (j r : Nat) (b : Btx) : Prop where
  width : b.sr.width = c.n + 2
  bc : b.bc.toNat = c.n + 2 - j
  dc : b.dc.toNat = c.k - 1 - r
  bits : ∀ i < c.n + 2, b.sr.bit i = if i + j < c.n + 2 then serialBit c.n c.byte (i + j) else true

namespace Btx.Sending
variable {c : UartCfg} {j r : Nat} {b : Btx}

theorem load (c : UartCfg) :
    Sending c 0 0 ⟨Word.serialFrame c.n c.byte, Word.ofNat c.bcw (c.n + 2), Word.ofNat c.dcw (c.k - 1)⟩ where
  width := rfl
  bc := Word.toNat_ofNat_bcw c
  dc := Word.toNat_ofNat_dcw c
  bits _ hi := (Word.bit_serialFrame hi).trans (if_pos hi).symm

theorem bc_ne_zero (h : Sending c j r b) (hj : j ≤ c.n + 1) : b.bc.toNat ≠ 0 := by
  have := h.bc
  omega

/-- Within a bit the divider counts. -/
theorem hold (h : Sending c j r b) (hj : j ≤ c.n + 1) (hr : r + 1 < c.k) (send : Bool) :
    Sending c j (r + 1) (b.next c send) := by
  have hdc := h.dc
  rw [Btx.next_hold send (h.bc_ne_zero hj) (by omega)]
  exact ⟨h.width, h.bc, (Word.toNat_dec_of_pos (by omega)).trans (by omega), h.bits⟩

/-- At the end of a bit the register shifts. -/
theorem shift (h : Sending c j r b) (hj : j ≤ c.n + 1) (hr : r + 1 = c.k) (send : Bool) :
    Sending c (j + 1) 0 (b.next c send) := by
  have hbc := h.bc
  have hdc := h.dc
  have hwidth := h.width
  rw [Btx.next_shift send (h.bc_ne_zero hj) (by omega)]
  refine ⟨hwidth, (Word.toNat_dec_of_pos (by omega)).trans (by omega), Word.toNat_ofNat_dcw c, fun i hi => ?_⟩
  rw [Word.bit_shiftInOne (by omega)]
  by_cases htop : i + 1 = c.n + 2
  · rw [if_pos (by omega), if_neg (by omega)]
  · rw [if_neg (by omega), h.bits (i + 1) (by omega), show i + 1 + j = i + (j + 1) by omega]

/-- With the frame over and no send the registers stay (R74). -/
theorem idle (h : Sending c (c.n + 2) r b) : Sending c (c.n + 2) r (b.next c false) := by
  have hbc := h.bc
  rwa [Btx.next_idle (by omega)]

/-- The line shows the frame bit. -/
theorem serialOut (h : Sending c j r b) (hj : j ≤ c.n + 1) : b.serialOut = serialBit c.n c.byte j := by
  have hbit := h.bits 0 (by omega)
  rwa [Nat.zero_add, if_pos (by omega)] at hbit

/-- With the frame over the line is high. -/
theorem serialOut_over (h : Sending c (c.n + 2) r b) : b.serialOut = true := by
  have hbit := h.bits 0 (by omega)
  rwa [Nat.zero_add, if_neg (by omega)] at hbit

end Btx.Sending

/-- The registers `e` cycles after a load, while the frame lasts. -/
def Btx.InFrame (c : UartCfg) (e : Nat) (b : Btx) : Prop :=
  ∀ j r, j ≤ c.n + 1 → r < c.k → e = j * c.k + r → Btx.Sending c j r b

section inFrame
variable {c : UartCfg} {e : Nat} {b : Btx}

theorem Btx.InFrame.load (hk : 1 ≤ c.k) (h : Btx.Sending c 0 0 b) : Btx.InFrame c 0 b := by
  intro j r hj hr he
  obtain ⟨hjk, rfl⟩ : j * c.k = 0 ∧ r = 0 := by omega
  obtain rfl : j = 0 := (Nat.mul_eq_zero.1 hjk).resolve_right (by omega)
  exact h

/-- An edge of the instance's clock carries the frame on by one cycle. -/
theorem Btx.InFrame.next (h : Btx.InFrame c e b) (send : Bool) : Btx.InFrame c (e + 1) (b.next c send) := by
  intro j r hj hr he
  cases r with
  | succ r => exact (h j r hj (by omega) (by omega)).hold hj hr send
  | zero =>
    cases j with
    | zero => omega
    | succ j =>
      rw [Nat.succ_mul] at he
      exact (h j (c.k - 1) (by omega) (by omega) (by omega)).shift (by omega) (by omega) send

/-- The edge that ends the stop bit ends the frame. -/
theorem Btx.InFrame.over (h : Btx.InFrame c e b) (hk : 1 ≤ c.k) (he : e + 1 = (c.n + 2) * c.k) (send : Bool) :
    Btx.Sending c (c.n + 2) 0 (b.next c send) := by
  rw [Nat.succ_mul] at he
  exact (h (c.n + 1) (c.k - 1) (Nat.le_refl _) (by omega) (by omega)).shift (Nat.le_refl _) (by omega) send

end inFrame

section run
variable {s t : State} {u k : Nat} {c : UartCfg} {b : Btx}

/-- A run from a load: while the frame lasts, the instance is as many cycles into it as the run has ended sys cycles. -/
theorem run_inFrame (hc : s.cfg.uarts[u]? = some c) (hb : s.btx[u]? = some b) (h : Btx.InFrame c 0 b)
    (ht : Host.Core.run core k s = .next t) : ∃ b', t.btx[u]? = some b' ∧ Btx.InFrame c (s.sysEdges k) b' := by
  induction k generalizing t with
  | zero =>
    cases ht
    exact ⟨b, hb, h⟩
  | succ k ih =>
    obtain ⟨v, hv, ht⟩ := run_succ_eq_next_last.1 ht
    obtain ⟨b', hb', hin⟩ := ih hv
    refine ⟨_, step_btx_next ht ((run_cfg hv).symm ▸ hc) hb', ?_⟩
    rw [State.sysEdges_last hv ht]
    split
    · exact hin
    · exact hin.next _

/-- The same run past the frame, while no further send is accepted. -/
theorem run_frame_over (hc : s.cfg.uarts[u]? = some c) (hb : s.btx[u]? = some b) (hk : 1 ≤ c.k)
    (h : Btx.InFrame c 0 b) (ht : Host.Core.run core k s = .next t) (hover : (c.n + 2) * c.k ≤ s.sysEdges k)
    (hquiet : ∀ (i : Nat) (v : State), i < k → Host.Core.run core i s = .next v → (c.n + 2) * c.k ≤ s.sysEdges i →
      v.event.edge ≠ .rx → v.begin.sendLevel u = false) :
    ∃ b', t.btx[u]? = some b' ∧ Btx.Sending c (c.n + 2) 0 b' := by
  induction k generalizing t with
  | zero =>
    rw [State.sysEdges_zero] at hover
    have hpos : 0 < (c.n + 2) * c.k := Nat.mul_pos (Nat.succ_pos _) hk
    omega
  | succ k ih =>
    obtain ⟨v, hv, ht⟩ := run_succ_eq_next_last.1 ht
    have hcv : v.cfg.uarts[u]? = some c := (run_cfg hv).symm ▸ hc
    rw [State.sysEdges_last hv ht] at hover
    by_cases hbefore : (c.n + 2) * c.k ≤ s.sysEdges k
    · obtain ⟨b', hb', hsent⟩ := ih hv hbefore fun i w hi => hquiet i w (Nat.lt_succ_of_lt hi)
      refine ⟨_, step_btx_next ht hcv hb', ?_⟩
      split
      · exact hsent
      · rw [hquiet k v (Nat.lt_succ_self k) hv hbefore ‹_›]
        exact hsent.idle
    · obtain ⟨b', hb', hin⟩ := run_inFrame hc hb h hv
      refine ⟨_, step_btx_next ht hcv hb', ?_⟩
      split
      case isTrue hrx =>
        rw [if_pos hrx] at hover
        omega
      case isFalse hrx =>
        rw [if_neg hrx] at hover
        exact hin.over hk (by omega) _

end run

/-- Settles O57: the first edge loads the frame, and the rest of the run counts its cycles from there. -/
theorem serialFrameTiming : Obligations.SerialFrameTiming := by
  intro s u c b k t hs he hc hb hidle hsend ht
  cases k with
  | zero =>
    cases ht
    refine ⟨b, hb, fun j r _ _ hcount => ?_, fun hcount => ?_⟩ <;> rw [State.sysEdges_zero] at hcount <;> omega
  | succ k =>
    obtain ⟨s₁, h₁, ht⟩ := run_succ_eq_next.1 ht
    obtain ⟨-, -, -, -, -, -, -, -, -, -, -, -, huarts⟩ := Params.legal_iff.1 hs.legal
    obtain ⟨-, hk, -⟩ := UartCfg.of_legal (huarts c (List.mem_of_getElem? hc))
    have hc₁ : s₁.cfg.uarts[u]? = some c := (step_cfg h₁).symm ▸ hc
    have hb₁ := step_btx_next h₁ hc hb
    rw [if_neg he, hsend, Btx.next_load hidle] at hb₁
    have hload := Btx.InFrame.load hk (Btx.Sending.load c)
    obtain ⟨b', hb', hin⟩ := run_inFrame hc₁ hb₁ hload ht
    have hcount : s.sysEdges (k + 1) = 1 + s₁.sysEdges k := by rw [State.sysEdges_succ h₁, if_neg he]
    refine ⟨b', hb', fun j r hj hr hjr => ?_, fun hover hquiet => ?_⟩
    · have hsent := hin j r hj hr (by omega)
      exact ⟨hsent.serialOut hj, hsent.bc_ne_zero hj⟩
    · obtain ⟨b'', hb'', hsent⟩ := run_frame_over hc₁ hb₁ hk hload ht (by omega) fun i v hi hv hover hedge =>
        hquiet (i + 1) v (Nat.succ_lt_succ hi) (run_succ_eq_next.2 ⟨s₁, h₁, hv⟩)
          (by rw [State.sysEdges_succ h₁, if_neg he]; omega) hedge
      cases hb'.symm.trans hb''
      exact ⟨hsent.serialOut_over, hsent.bc.trans (Nat.sub_self _)⟩

end Sys2Proof.Machine

/-! A captured frame (R84, R87 to R92): the registers of LRX and the bytes in CAPBUF after `n` cycles of rx, how an edge
carries them on, and the statement about runs put together from these. -/

namespace Sys2Proof.Machine

/-- CAPBUF with the first `n` bytes of a frame at addresses 1 to `n`, and otherwise as before. -/
def Mem.HoldsFrame (m : Mem) (frame : List Byte) (before : Mem) (n : Nat) : Prop :=
  (∀ i < n, some (m.read (i + 1)) = frame[i]?) ∧ ∀ a, a = 0 ∨ n < a → m.read a = before.read a

theorem Mem.HoldsFrame.empty (frame : List Byte) (m : Mem) : m.HoldsFrame frame m 0 :=
  ⟨fun _ hi => absurd hi (Nat.not_lt_zero _), fun _ _ => rfl⟩

/-- The next byte goes to the next address. -/
theorem Mem.HoldsFrame.write {frame : List Byte} {before m : Mem} {n : Nat} {x : Byte}
    (h : m.HoldsFrame frame before n) (hx : some x = frame[n]?) :
    (m.write (n + 1) x).HoldsFrame frame before (n + 1) := by
  obtain ⟨hbytes, hkept⟩ := h
  refine ⟨fun i hi => ?_, fun a ha => ?_⟩
  · rcases Nat.lt_succ_iff_lt_or_eq.1 hi with hi | rfl
    · rw [Mem.read_write_other _ _ (by omega)]
      exact hbytes i hi
    · rwa [Mem.read_write_same]
  · rw [Mem.read_write_other _ _ (by omega)]
    exact hkept a (by omega)

/-- LRX and CAPBUF after `n` rx cycles of a frame that began in `IDLE`: before it; with the frame's byte `n` at the
write port and those before it stored; at the report; and after it. -/
inductive Capturing (frame : List Byte) (before : Mem) : Nat → Lrx → Mem → Prop where
  | waiting {l : Lrx} (state : l.state = .idle) : Capturing frame before 0 l before
  | taking {l : Lrx} {m : Mem} {n : Nat} (hn : n < frame.length) (state : l.state = .capture)
      (cnt : l.cnt.toNat = n + 1) (wdata : some l.wdata = frame[n]?) (avail : l.frameAvail = false)
      (holds : m.HoldsFrame frame before n) : Capturing frame before (n + 1) l m
  | reported {l : Lrx} {m : Mem} (state : l.state = .idle) (avail : l.frameAvail = true)
      (len : l.frameLen.toNat = frame.length) (holds : m.HoldsFrame frame before frame.length) :
      Capturing frame before (frame.length + 1) l m
  | finished {l : Lrx} {m : Mem} (avail : l.frameAvail = false) (holds : m.HoldsFrame frame before frame.length) :
      Capturing frame before (frame.length + 2) l m

/-- The levels in an rx cycle with the frame's byte `n`, or in the cycle after the last one. -/
def IsFrameCycle (frame : List Byte) (n : Nat) (valid : Bool) (data : Byte) : Prop :=
  (n < frame.length → valid = true ∧ some data = frame[n]?) ∧ (n = frame.length → valid = false)

theorem isFrameCycle_of_getElem? {frame : List Byte} {x data : Byte} {rest : List (Bool × Byte)} {n : Nat}
    {valid : Bool} (h : (frame.map (fun b => (true, b)) ++ (false, x) :: rest)[n]? = some (valid, data)) :
    IsFrameCycle frame n valid data := by
  constructor
  · intro hn
    rw [List.getElem?_append_left (by rwa [List.length_map]), List.getElem?_map] at h
    obtain ⟨b, hb, heq⟩ := Option.map_eq_some_iff.1 h
    cases heq
    exact ⟨rfl, hb.symm⟩
  · intro hn
    rw [List.getElem?_append_right (by rw [List.length_map, hn]), List.length_map, hn, Nat.sub_self] at h
    cases h
    rfl

section step
variable {s t : State} {frame : List Byte} {before : Mem} {n : Nat}

/-- An edge of LRX's clock takes the capture one cycle on (R86 to R89). -/
theorem Capturing.next (h : Capturing frame before n s.lrx s.capbuf) (hs : s.Shape) (hne : frame ≠ [])
    (hlt : frame.length < s.cfg.d) (hn : n ≤ frame.length + 1) (he : s.event.edge ≠ .sys)
    (hcycle : IsFrameCycle frame n s.begin.validity s.begin.inp.rxData) (ht : step s = .next t) :
    Capturing frame before (n + 1) t.lrx t.capbuf := by
  obtain ⟨haw, hd, -⟩ := Params.legal_iff.1 hs.legal
  obtain ⟨hbyte, hend⟩ := hcycle
  have hlrx := step_lrx ht
  have hcapbuf := step_capbuf ht
  rw [if_neg he] at hlrx
  simp only [ne_eq, he, not_false_eq_true, true_and] at hcapbuf
  generalize hl : s.lrx = l at h hlrx hcapbuf
  generalize hm : s.capbuf = m at h hcapbuf
  cases h with
  | waiting state =>
    have hpos := List.length_pos_iff.2 hne
    obtain ⟨hvalid, hdata⟩ := hbyte hpos
    rw [state, hvalid] at hlrx
    rw [state, if_neg (by decide)] at hcapbuf
    rw [hlrx, hcapbuf]
    exact .taking hpos rfl (Word.toNat_ofNat_one haw) hdata rfl (Mem.HoldsFrame.empty frame _)
  | @taking l m n hn' state cnt wdata avail holds =>
    rw [state, if_pos rfl, cnt] at hcapbuf
    have hstored := hcapbuf ▸ holds.write wdata
    by_cases hlast : n + 1 < frame.length
    · obtain ⟨hvalid, hdata⟩ := hbyte hlast
      have hinc : l.cnt.inc.toNat = n + 1 + 1 := by
        have hwidth : l.cnt.width = s.cfg.aw := hl ▸ hs.cnt
        rw [Word.toNat_inc_of_lt (by rw [hwidth, ← hd]; omega), cnt]
      rw [state, hvalid] at hlrx
      rw [hlrx]
      exact .taking hlast state hinc hdata avail hstored
    · have hlen : n + 1 = frame.length := by omega
      rw [state, hend hlen] at hlrx
      rw [hlen] at hstored cnt ⊢
      rw [hlrx]
      exact .reported rfl rfl cnt hstored
  | reported state avail len holds =>
    rw [state] at hlrx
    rw [state, if_neg (by decide)] at hcapbuf
    rw [hlrx, hcapbuf]
    exact .finished rfl holds
  | finished avail holds => omega

/-- After `n` rx cycles of a run whose cycles begin with the frame. -/
theorem run_capturing {k : Nat} {x : Byte} {rest : List (Bool × Byte)} (hs : s.Shape) (hidle : s.lrx.state = .idle)
    (hne : frame ≠ []) (hlt : frame.length < s.cfg.d) (ht : Host.Core.run core k s = .next t)
    (hcycles : s.rxCycles k <+: frame.map (fun b => (true, b)) ++ (false, x) :: rest)
    (hn : (s.rxCycles k).length ≤ frame.length + 2) :
    Capturing frame s.capbuf (s.rxCycles k).length t.lrx t.capbuf := by
  induction k generalizing t with
  | zero =>
    cases ht
    exact .waiting hidle
  | succ k ih =>
    obtain ⟨v, hv, ht⟩ := run_succ_eq_next_last.1 ht
    rw [State.rxCycles_last hv ht] at hcycles hn ⊢
    have hv' := ih hv ((List.prefix_append _ _).trans hcycles) (by rw [List.length_append] at hn; omega)
    by_cases he : v.event.edge = .sys
    · rw [if_pos he, List.append_nil, step_lrx ht, step_capbuf ht, if_pos he, if_neg fun h => h.1 he]
      exact hv'
    · rw [if_neg he] at hcycles hn ⊢
      rw [List.length_append, List.length_singleton] at hn ⊢
      obtain ⟨tail, htail⟩ := hcycles
      have hcycle := isFrameCycle_of_getElem? (frame := frame) (x := x) (rest := rest) (n := (s.rxCycles k).length)
        (by rw [← htail, List.append_assoc, List.getElem?_append_right (Nat.le_refl _), Nat.sub_self]; rfl)
      exact hv'.next (run_shape hs hv) hne ((run_cfg hv).symm ▸ hlt) (by omega) he hcycle ht

end step

section reading
variable {frame : List Byte} {before m : Mem} {n : Nat} {l : Lrx}

/-- What the stages say of CAPBUF. -/
theorem Capturing.holdsFrame (h : Capturing frame before n l m) :
    m.HoldsFrame frame before (min (n - 1) frame.length) := by
  cases h with
  | waiting => exact Mem.HoldsFrame.empty frame before
  | taking hn _ _ _ _ holds => rwa [Nat.add_sub_cancel, Nat.min_eq_left hn.le]
  | reported _ _ _ holds => rwa [Nat.add_sub_cancel, Nat.min_self]
  | finished _ holds => rwa [Nat.min_eq_right (by omega)]

/-- What they say of `frame_avail`. -/
theorem Capturing.frameAvail_eq (h : Capturing frame before n l m) (hn : 1 ≤ n) :
    l.frameAvail = decide (n = frame.length + 1) := by
  cases h with
  | waiting => omega
  | taking hn _ _ _ avail _ => rw [avail, decide_eq_false (by omega)]
  | reported _ avail _ _ => rw [avail, decide_eq_true rfl]
  | finished avail _ => rw [avail, decide_eq_false (by omega)]

/-- What they say of the report. -/
theorem Capturing.report (h : Capturing frame before n l m) (hn : n = frame.length + 1) :
    l.frameLen.toNat = frame.length ∧ l.state = .idle := by
  cases h with
  | waiting => omega
  | taking => omega
  | reported state _ len _ => exact ⟨len, state⟩
  | finished => omega

end reading

/-- Settles O58: what the stage that the run has come to says of CAPBUF and of the outputs. -/
theorem capturedFrameIsStored : Obligations.CapturedFrameIsStored := by
  intro s frame x rest k t hs hidle hne hlt ht hcycles n hlen hn
  subst hlen
  have h := run_capturing hs hidle hne hlt ht hcycles hn
  obtain ⟨hbytes, hkept⟩ := h.holdsFrame
  exact ⟨hbytes, hkept, h.frameAvail_eq, h.report⟩

end Sys2Proof.Machine

/-! A replayed frame (R96 to R102): the registers of LTX and REPBUF's read data `j` rx cycles after the start, how an
edge carries them on, and the statement about runs put together from these. -/

namespace Sys2Proof.Machine

/-- LTX and REPBUF's read data in cycle `j` of a frame: up to the frame's last cycle but one the address is `j`, in the
last one LTX is back in `IDLE` (R102; D14 for lengths below 2). -/
structure Ltx.Replaying (c : Params) (payload : Mem) (j : Nat) (l : Ltx) (data : Byte) : Prop where
  en : l.en = true
  len : l.len.toNat = c.replayLen
  data : data = payload.read (j - 1)
  running : j < max c.replayLen 2 → l.state = .data ∧ l.raddr.toNat = j
  last : j = max c.replayLen 2 → l.state = .idle

section step
variable {s t : State}

/-- LTX's start, as its next state tells it (R98). -/
theorem step_ltx_of_idle (h : step s = .next t) (he : s.event.edge ≠ .sys) (hs : s.ltx.state = .idle) :
    ∃ start : Bool, t.ltx = ⟨if start then .data else .idle, Word.ofNat s.cfg.aw s.cfg.replayLen,
      Word.ofNat s.cfg.aw start.toNat, start⟩ := by
  obtain ⟨start, hltx⟩ := step_ltx h
  rw [if_neg he, hs] at hltx
  exact ⟨start, hltx⟩

theorem Ltx.Replaying.start (hs : s.Shape) (he : s.event.edge ≠ .sys) (hidle : s.ltx.state = .idle)
    (hraddr : s.ltx.raddr.toNat = 0) (ht : step s = .next t) (hdata : t.ltx.state = .data) :
    Ltx.Replaying s.cfg s.repbuf 1 t.ltx t.repRdata := by
  obtain ⟨haw, -⟩ := Params.legal_iff.1 hs.legal
  obtain ⟨start, hltx⟩ := step_ltx_of_idle ht he hidle
  have hread := step_repRdata ht
  rw [if_neg he, hraddr] at hread
  rw [hltx] at hdata ⊢
  cases start
  · cases hdata
  · exact ⟨rfl, State.toNat_ltxFrameLength hs.legal, hread, fun _ => ⟨rfl, Word.toNat_ofNat_one haw⟩,
      fun hj => by omega⟩

/-- An edge of LTX's clock takes the frame one cycle on (R99 to R101). -/
theorem Ltx.Replaying.next {j : Nat} (h : Ltx.Replaying s.cfg s.repbuf j s.ltx s.repRdata) (hs : s.Shape)
    (hj : 1 ≤ j) (hlt : j < max s.cfg.replayLen 2) (he : s.event.edge ≠ .sys) (ht : step s = .next t) :
    Ltx.Replaying s.cfg s.repbuf (j + 1) t.ltx t.repRdata := by
  obtain ⟨-, hd, -, -, -, -, -, -, -, -, -, hlen, -⟩ := Params.legal_iff.1 hs.legal
  obtain ⟨hstate, hraddr⟩ := h.running hlt
  obtain ⟨_, hltx⟩ := step_ltx ht
  rw [if_neg he, hstate] at hltx
  have hread := step_repRdata ht
  rw [if_neg he, hraddr] at hread
  have hlast : s.ltx.last = true ↔ s.cfg.replayLen ≤ 1 ∨ j = s.cfg.replayLen - 1 := by
    rw [Ltx.last_iff, h.len, hraddr]
  rw [hltx]
  refine ⟨h.en, h.len, hread, fun hnext => ⟨if_neg (by rw [hlast]; omega), ?_⟩,
    fun hnext => if_pos (hlast.2 (by omega))⟩
  have hfits : s.ltx.raddr.toNat + 1 < 2 ^ s.ltx.raddr.width := by
    rw [hs.ltxRaddr, ← hd]
    omega
  exact (Word.toNat_inc_of_lt hfits).trans (by rw [hraddr])

end step

section run
variable {s t : State} {k : Nat}

/-- A run from the first cycle of a frame, up to the frame's last. -/
theorem run_replaying (hs : s.Shape) (h : Ltx.Replaying s.cfg s.repbuf 1 s.ltx s.repRdata)
    (ht : Host.Core.run core k s = .next t) (hj : 1 + (s.rxCycles k).length ≤ max s.cfg.replayLen 2) :
    Ltx.Replaying s.cfg s.repbuf (1 + (s.rxCycles k).length) t.ltx t.repRdata := by
  induction k generalizing t with
  | zero =>
    cases ht
    exact h
  | succ k ih =>
    obtain ⟨v, hv, ht⟩ := run_succ_eq_next_last.1 ht
    rw [State.rxCycles_last hv ht, List.length_append] at hj ⊢
    have hv' := ih hv (by omega)
    by_cases he : v.event.edge = .sys
    · obtain ⟨start, hltx⟩ := step_ltx ht
      rw [if_pos he] at hltx ⊢
      rw [hltx, step_repRdata ht, if_pos he]
      exact hv'
    · rw [if_neg he, List.length_singleton] at hj ⊢
      rw [← run_cfg hv, ← run_repbuf hv] at hv' ⊢
      exact hv'.next (run_shape hs hv) (by omega) (by rw [run_cfg hv]; omega) he ht

/-- Past a count of cycles from which on LTX stays in `IDLE`, the enable is 0 (R97). -/
theorem run_en_of_idle {n : Nat} (ht : Host.Core.run core k s = .next t) (hn : n < (s.rxCycles k).length)
    (hidle : ∀ (i : Nat) (v : State), i ≤ k → Host.Core.run core i s = .next v → n ≤ (s.rxCycles i).length →
      v.ltx.state = .idle) : t.ltx.en = false := by
  induction k generalizing t with
  | zero => exact absurd hn (Nat.not_lt_zero _)
  | succ k ih =>
    obtain ⟨v, hv, hstep⟩ := run_succ_eq_next_last.1 ht
    have hcount := congrArg List.length (State.rxCycles_last hv hstep)
    rw [List.length_append] at hcount
    by_cases he : v.event.edge = .sys
    · rw [if_pos he, List.length_nil] at hcount
      obtain ⟨start, hltx⟩ := step_ltx hstep
      rw [hltx, if_pos he]
      exact ih hv (by omega) fun i w hi => hidle i w (Nat.le_succ_of_le hi)
    · rw [if_neg he, List.length_singleton] at hcount
      have hafter := hidle (k + 1) t (Nat.le_refl _) ht (by omega)
      obtain ⟨start, hltx⟩ := step_ltx_of_idle hstep he (hidle k v (Nat.le_succ k) hv (by omega))
      rw [hltx] at hafter ⊢
      cases start
      · rfl
      · cases hafter

end run

/-- Settles O59: the first edge starts the frame, the rest of the run counts its cycles, and past the last of them LTX
idles. -/
theorem replayedFrameIsThePayload : Obligations.ReplayedFrameIsThePayload := by
  intro s u k t hs he hidle hraddr hu hdata ht j hj
  have hctl := State.txCtl_of_legal (run_shape hs ht).legal
  refine ⟨fun hpos hle => ?_, fun hlt hquiet => ?_⟩
  · cases k with
    | zero =>
      rw [State.rxCycles_zero, List.length_nil] at hj
      omega
    | succ k =>
      obtain ⟨u', hu', ht⟩ := run_succ_eq_next.1 ht
      cases hu.symm.trans hu'
      have hstart := Ltx.Replaying.start hs he hidle hraddr hu hdata
      rw [State.rxCycles_succ hu, if_neg he, List.length_append, List.length_singleton] at hj
      rw [← step_cfg hu, ← step_repbuf hu] at hstart
      have hnow := run_replaying (shapeIsKept s u hs hu) hstart ht (by rw [step_cfg hu]; omega)
      rw [step_cfg hu, step_repbuf hu, hj] at hnow
      refine ⟨hctl.trans (if_pos hnow.en), hnow.data, ?_⟩
      show decide (t.ltx.state = .idle) = decide (j = max s.cfg.replayLen 2)
      by_cases hlast : j = max s.cfg.replayLen 2
      · rw [hnow.last hlast, decide_eq_true hlast]
        rfl
      · obtain ⟨hstate, -⟩ := hnow.running (by omega)
        rw [hstate, decide_eq_false hlast]
        rfl
  · have hen := run_en_of_idle ht (hj.symm ▸ hlt) hquiet
    exact hctl.trans (by rw [hen]; rfl)

end Sys2Proof.Machine

/-! A dump (R40 to R42, R106 to R115): the registers of PDM in each sys cycle of it, how an edge carries them on, and
the statement about runs put together from these. -/

namespace Sys2Proof.Machine

/-- The byte that CAPBUF's port reads at the edge that ends sys cycle `n` of a run from `s` (R40 to R42). -/
def State.ReadAt (s : State) (n : Nat) (x : Byte) : Prop :=
  ∀ (k : Nat) (v : State), Host.Core.run core k s = .next v → s.sysEdges k = n → v.event.edge ≠ .rx →
    x = v.begin.readPort .capbuf

/-- PDM and CAPBUF's read data before the fetch of word `i` of `len`: the word is the one read one edge before. -/
structure Pdm.Fetching (s : State) (len i : Nat) (p : Pdm) (rdata : Byte) : Prop where
  state : p.state = .data
  len : p.len.toNat = len % 2 ^ s.cfg.aw
  raddr : p.raddr.toNat = i
  read : s.ReadAt (i * s.cfg.ddiv) rdata

/-- PDM and CAPBUF's read data `r` cycles after the fetch of word `i` of `len`: it waits with the next address at the
port, and in the word's last cycle goes on to the next fetch, or is idle after the last word (R108 to R111). -/
structure Pdm.Showing (s : State) (len i r : Nat) (p : Pdm) (rdata : Byte) : Prop where
  strobe : p.strobe = decide (r ≠ 0)
  read : s.ReadAt (i * s.cfg.ddiv) p.word
  waiting : r + 1 < s.cfg.ddiv → p.state = .wait ∧ p.len.toNat = len % 2 ^ s.cfg.aw ∧
    p.raddr.toNat = (i + 1) % 2 ^ s.cfg.aw ∧ p.dc.toNat = s.cfg.ddiv - 2 - r
  fetching : r + 1 = s.cfg.ddiv → i + 1 < len → Pdm.Fetching s len (i + 1) p rdata
  idle : r + 1 = s.cfg.ddiv → i + 1 = len → p.state = .idle

/-- PDM and CAPBUF's read data after `e` sys cycles of a dump of `len` words. -/
def Pdm.Dumping (s : State) (len e : Nat) (p : Pdm) (rdata : Byte) : Prop :=
  (e = 1 → Pdm.Fetching s len 0 p rdata) ∧
    ∀ i r, i < len → r < s.cfg.ddiv → e = 2 + i * s.cfg.ddiv + r → Pdm.Showing s len i r p rdata

section step
variable {s v t : State} {k len i r : Nat}

/-- What the port reads at an edge of its clock. -/
theorem State.readAt_of_step (hv : Host.Core.run core k s = .next v) (he : v.event.edge ≠ .rx) (ht : step v = .next t) :
    s.ReadAt (s.sysEdges k) t.capRdata := by
  intro k' v' hv' hcount he'
  obtain rfl := State.sysEdges_inj hv' hv he' he hcount
  cases hv.symm.trans hv'
  exact (step_capRdata ht).trans (if_neg he)

/-- The start of a dump (R107). -/
theorem Pdm.Fetching.start (he : s.event.edge ≠ .rx) (hidle : s.pdm.state = .idle) (ht : step s = .next t)
    (hdata : t.pdm.state = .data) (hlen : t.pdm.len.toNat = len % 2 ^ s.cfg.aw) :
    Pdm.Fetching s len 0 t.pdm t.capRdata := by
  have hread := State.readAt_of_step (s := s) (k := 0) rfl he ht
  obtain ⟨start, latched, hpdm⟩ := step_pdm ht
  rw [if_neg he, hidle] at hpdm
  refine ⟨hdata, hlen, ?_, (Nat.zero_mul _).symm ▸ hread⟩
  rw [hpdm]
  exact Word.toNat_ofNat_zero _

/-- PDM.FETCH: the word that was read is shown, and the next address counts from there (R108). -/
theorem Pdm.Fetching.next (h : Pdm.Fetching s len i v.pdm v.capRdata) (hs : v.Shape) (hcfg : v.cfg = s.cfg)
    (he : v.event.edge ≠ .rx) (ht : step v = .next t) : Pdm.Showing s len i 0 t.pdm t.capRdata := by
  obtain ⟨-, -, -, hddiv, -⟩ := Params.legal_iff.1 hs.legal
  obtain ⟨_, _, hpdm⟩ := step_pdm ht
  rw [if_neg he, h.state] at hpdm
  rw [hcfg] at hddiv
  have hraddr : v.pdm.raddr.inc.toNat = (i + 1) % 2 ^ s.cfg.aw := by
    rw [Word.toNat_inc, h.raddr, hs.pdmRaddr, hcfg]
  have hdc : (Word.ofNat v.cfg.pdw (v.cfg.ddiv - 2)).toNat = s.cfg.ddiv - 2 :=
    (Word.toNat_ofNat_pdw hs.legal).trans (by rw [hcfg])
  rw [hpdm]
  exact ⟨rfl, h.read, fun _ => ⟨rfl, h.len, hraddr, hdc⟩, fun hr => by omega, fun hr => by omega⟩

/-- PDM.COUNT, PDM.NEXT and PDM.DONE: the strobe is up, and the edge that finds the divider at 0 ends the word; the read
address has reached the length exactly after the last word, both taken modulo 2^AW (R109 to R112). -/
theorem Pdm.Showing.next (h : Pdm.Showing s len i r v.pdm v.capRdata) (hlen : len ≤ 2 ^ s.cfg.aw)
    (hr : r + 1 < s.cfg.ddiv) (hv : Host.Core.run core k s = .next v)
    (hcount : s.sysEdges k = 2 + i * s.cfg.ddiv + r) (he : v.event.edge ≠ .rx) (ht : step v = .next t) :
    Pdm.Showing s len i (r + 1) t.pdm t.capRdata := by
  obtain ⟨hstate, hplen, hraddr, hdc⟩ := h.waiting hr
  have hread := State.readAt_of_step hv he ht
  obtain ⟨_, _, hpdm⟩ := step_pdm ht
  rw [if_neg he, hstate] at hpdm
  have hzero : v.pdm.divZero = true ↔ r + 1 + 1 = s.cfg.ddiv := by
    rw [Pdm.divZero_iff, hdc]
    omega
  rw [hpdm]
  refine ⟨(decide_eq_true (Nat.succ_ne_zero r)).symm, h.read, fun hr' => ?_, fun hr' hnext => ?_, fun hr' hlast => ?_⟩
  · have hdec : v.pdm.dc.dec.toNat = v.pdm.dc.toNat - 1 := Word.toNat_dec_of_pos (by omega)
    exact ⟨if_neg (by rw [hzero]; omega), hplen, hraddr, hdec.trans (by omega)⟩
  · have hfits : (i + 1) % 2 ^ s.cfg.aw = i + 1 := Nat.mod_eq_of_lt (by omega)
    have hnotEnd : ¬ v.pdm.atEnd = true := by
      rw [Pdm.atEnd_iff, hplen, hraddr, hfits]
      rcases Nat.lt_or_eq_of_le hlen with hlt | heq
      · rw [Nat.mod_eq_of_lt hlt]
        omega
      · rw [heq, Nat.mod_self]
        omega
    have hedge : s.sysEdges k = (i + 1) * s.cfg.ddiv := by
      rw [Nat.succ_mul]
      omega
    refine ⟨?_, hplen, hraddr.trans hfits, hedge ▸ hread⟩
    rw [if_pos (hzero.2 hr'), if_neg hnotEnd]
  · have hend : v.pdm.atEnd = true := by
      rw [Pdm.atEnd_iff, hplen, hraddr, hlast]
    show (if v.pdm.divZero = true then _ else _) = PdmState.idle
    rw [if_pos (hzero.2 hr'), if_pos hend]

/-- An edge of PDM's clock takes a dump one cycle on. -/
theorem Pdm.Dumping.next (h : Pdm.Dumping s len (s.sysEdges k) v.pdm v.capRdata) (hs : v.Shape) (hcfg : v.cfg = s.cfg)
    (hlen : len ≤ 2 ^ s.cfg.aw) (hpos : 1 ≤ s.sysEdges k) (hv : Host.Core.run core k s = .next v)
    (he : v.event.edge ≠ .rx) (ht : step v = .next t) :
    Pdm.Dumping s len (s.sysEdges k + 1) t.pdm t.capRdata := by
  obtain ⟨hfetching, hshowing⟩ := h
  refine ⟨fun hcount => by omega, fun i r hi hr hcount => ?_⟩
  cases r with
  | succ r => exact (hshowing i r hi (by omega) (by omega)).next hlen hr hv (by omega) he ht
  | zero =>
    cases i with
    | zero => exact (hfetching (by omega)).next hs hcfg he ht
    | succ i =>
      rw [Nat.succ_mul] at hcount
      have hshown := hshowing i (s.cfg.ddiv - 1) (by omega) (by omega) (by omega)
      exact (hshown.fetching (by omega) hi).next hs hcfg he ht

end step

section run
variable {s t : State} {k len : Nat}

/-- A run from a start: the dump is as many cycles on as the run has ended sys cycles. -/
theorem run_dumping (hs : s.Shape) (he : s.event.edge ≠ .rx) (hlen : len ≤ 2 ^ s.cfg.aw)
    (hstart : ∀ u : State, step s = .next u → Pdm.Fetching s len 0 u.pdm u.capRdata) (hk : 1 ≤ k)
    (ht : Host.Core.run core k s = .next t) :
    1 ≤ s.sysEdges k ∧ Pdm.Dumping s len (s.sysEdges k) t.pdm t.capRdata := by
  induction k, hk using Nat.le_induction generalizing t with
  | base =>
    obtain ⟨u, hu, hrest⟩ := run_succ_eq_next.1 ht
    cases hrest
    have hcount : s.sysEdges 1 = 1 := by rw [State.sysEdges_succ hu, if_neg he, State.sysEdges_zero]
    rw [hcount]
    exact ⟨Nat.le_refl _, fun _ => hstart _ hu, fun i r _ _ h => by omega⟩
  | succ k _ ih =>
    obtain ⟨v, hv, ht⟩ := run_succ_eq_next_last.1 ht
    obtain ⟨hpos, hv'⟩ := ih hv
    rw [State.sysEdges_last hv ht]
    by_cases hrx : v.event.edge = .rx
    · obtain ⟨_, _, hpdm⟩ := step_pdm ht
      rw [if_pos hrx] at hpdm ⊢
      rw [hpdm, step_capRdata ht, if_pos hrx]
      exact ⟨hpos, hv'⟩
    · rw [if_neg hrx]
      exact ⟨Nat.le_add_left _ _, hv'.next (run_shape hs hv) (run_cfg hv) hlen hpos hv hrx ht⟩

/-- At the edge that ends sys cycle `i * DDIV` of a dump the address at CAPBUF's port is `i` (R113). -/
theorem run_raddr_of_readEdge {i : Nat} (hs : s.Shape) (he : s.event.edge ≠ .rx) (hraddr : s.pdm.raddr.toNat = 0)
    (hlen : len ≤ 2 ^ s.cfg.aw) (hstart : ∀ u : State, step s = .next u → Pdm.Fetching s len 0 u.pdm u.capRdata)
    (hi : i < len) (ht : Host.Core.run core k s = .next t) (hcount : s.sysEdges k = i * s.cfg.ddiv)
    (het : t.event.edge ≠ .rx) : t.pdm.raddr.toNat = i := by
  obtain ⟨-, -, -, hddiv, -⟩ := Params.legal_iff.1 hs.legal
  cases i with
  | zero =>
    obtain rfl := State.sysEdges_inj (u := s) (m := 0) rfl ht he het
      (by rw [State.sysEdges_zero, hcount, Nat.zero_mul])
    cases ht
    exact hraddr
  | succ i =>
    rw [Nat.succ_mul] at hcount
    have hk : 1 ≤ k := Nat.one_le_iff_ne_zero.2 fun hk => by
      subst hk
      rw [State.sysEdges_zero] at hcount
      omega
    obtain ⟨-, -, hshowing⟩ := run_dumping hs he hlen hstart hk ht
    have hshown := hshowing i (s.cfg.ddiv - 2) (by omega) (by omega) (by omega)
    obtain ⟨-, -, haddr, -⟩ := hshown.waiting (by omega)
    rw [haddr, Nat.mod_eq_of_lt (by omega)]

end run

section busy
variable {s : State} {len e : Nat} {p : Pdm} {rdata : Byte}

/-- PDM is out of `IDLE` for `len * DDIV` cycles (R114). -/
theorem Pdm.Dumping.ne_idle (h : Pdm.Dumping s len e p rdata) (hpos : 1 ≤ e) (hle : e ≤ len * s.cfg.ddiv)
    (hddiv : 2 ≤ s.cfg.ddiv) : p.state ≠ .idle := by
  obtain ⟨hfetching, hshowing⟩ := h
  by_cases hfirst : e = 1
  · rw [(hfetching hfirst).state]
    decide
  · have hword : (e - 2) / s.cfg.ddiv < len := Nat.div_lt_of_lt_mul (by rw [Nat.mul_comm]; omega)
    have hcycle : (e - 2) % s.cfg.ddiv < s.cfg.ddiv := Nat.mod_lt _ (by omega)
    have hsplit := Nat.div_add_mod' (e - 2) s.cfg.ddiv
    generalize (e - 2) / s.cfg.ddiv = i at hword hsplit
    generalize (e - 2) % s.cfg.ddiv = r at hcycle hsplit
    have hshown := hshowing i r hword hcycle (by omega)
    rcases Nat.lt_or_eq_of_le hcycle with hwaiting | hlast
    · obtain ⟨hstate, -⟩ := hshown.waiting hwaiting
      rw [hstate]
      decide
    · have hmore : i + 1 ≠ len := by
        rintro rfl
        rw [Nat.succ_mul] at hle
        omega
      rw [(hshown.fetching hlast (by omega)).state]
      decide

/-- The last word's last cycle finds PDM idle (R111, R114). -/
theorem Pdm.Dumping.idle (h : Pdm.Dumping s len e p rdata) (hlen : 1 ≤ len) (he : e = 1 + len * s.cfg.ddiv)
    (hddiv : 2 ≤ s.cfg.ddiv) : p.state = .idle := by
  obtain ⟨-, hshowing⟩ := h
  obtain ⟨i, rfl⟩ := Nat.exists_eq_add_of_le' hlen
  rw [Nat.succ_mul] at he
  exact (hshowing i (s.cfg.ddiv - 1) (by omega) (by omega) (by omega)).idle (by omega) rfl

end busy

/-- The length latched, in words: the register's value, and all D words where it is 0 (the spec's decision D5). -/
theorem dumpLength_facts {c : Params} {w : Word} {len : Nat} (hc : c.legal = true) (hw : w.width = c.aw)
    (hlen : len = if w.toNat = 0 then c.d else w.toNat) :
    1 ≤ len ∧ len ≤ 2 ^ c.aw ∧ w.toNat = len % 2 ^ c.aw := by
  obtain ⟨-, hd, -⟩ := Params.legal_iff.1 hc
  have hlt := hw ▸ w.toNat_lt
  split at hlen
  case isTrue hzero =>
    rw [hlen, hd, Nat.mod_self]
    exact ⟨Nat.one_le_two_pow, Nat.le_refl _, hzero⟩
  case isFalse hpos =>
    rw [hlen, Nat.mod_eq_of_lt hlt]
    exact ⟨Nat.one_le_iff_ne_zero.2 hpos, hlt.le, rfl⟩

/-- The port's byte is CAPBUF's where no write of the address is near (R40). -/
theorem State.readPort_begin {v : State} {i : Nat} (hraddr : v.pdm.raddr.toNat = i)
    (hnear : (v.cfg.clocking = .single ∧ (v.lrx.state = .capture → v.lrx.cnt.toNat ≠ i)) ∨
      (v.cfg.clocking = .dual ∧ recentByte v.recent i = none)) : v.begin.readPort .capbuf = v.capbuf.read i := by
  subst hraddr
  obtain ⟨-, hport⟩ := readPortTakesTheAddressedWord v.begin
  obtain ⟨t, ht, hread, -⟩ := hport hnear
  cases ht
  exact hread

/-- Settles O60: the first edge starts the dump, and the run's count of sys cycles tells the word and its cycle. -/
theorem dumpedWordsAndStrobe : Obligations.DumpedWordsAndStrobe := by
  intro s u k t hs he hidle hraddr hu hdata ht len hlen
  obtain ⟨-, -, -, hddiv, -⟩ := Params.legal_iff.1 hs.legal
  obtain ⟨hwidth, -, -⟩ := step_pdm_widths hs hu
  obtain ⟨hlenPos, hlenLe, hlenMod⟩ := dumpLength_facts hs.legal hwidth hlen
  have hstart : ∀ u : State, step s = .next u → Pdm.Fetching s len 0 u.pdm u.capRdata := fun u' hu' => by
    cases hu.symm.trans hu'
    exact Pdm.Fetching.start he hidle hu hdata hlenMod
  have hdump : 1 ≤ s.sysEdges k → Pdm.Dumping s len (s.sysEdges k) t.pdm t.capRdata := fun hpos => by
    have hk : 1 ≤ k := Nat.one_le_iff_ne_zero.2 fun hk => by
      subst hk
      exact absurd hpos (Nat.not_succ_le_zero 0)
    obtain ⟨-, hdump⟩ := run_dumping hs he hlenLe hstart hk ht
    exact hdump
  refine ⟨fun i r hi hr hcount => ?_, fun hpos hle => ?_, fun hcount => ?_⟩
  · obtain ⟨-, hshowing⟩ := hdump (by omega)
    have hshown := hshowing i r hi hr hcount
    refine ⟨hshown.strobe, fun p v hv hcount hev => ?_⟩
    have haddr := run_raddr_of_readEdge hs he hraddr hlenLe hstart hi hv hcount hev
    have hword := hshown.read p v hv hcount hev
    exact ⟨haddr, hword, fun hnear => hword.trans (State.readPort_begin haddr hnear)⟩
  · exact (hdump hpos).ne_idle hpos hle hddiv
  · exact (hdump (by omega)).idle hlenPos hcount hddiv

end Sys2Proof.Machine
